-- ==== Sys2Proof/Word.lean ====
section
/-! DEFINITION. The word type of the block: every register, command, status byte and image byte is 8 bits (R8, R9, R64). -/

namespace Sys2Proof

/-- A byte: 8 bits, bit 7 the most significant (R8). -/
abbrev Byte := BitVec 8

end Sys2Proof
end

