-- ==== Sys2Proof/Syntax.lean ====
section
/-! DEFINITION. The instructions of spec/opcode_table.json: eleven command bytes (R82 to R88) and ten
bus words (R81), one constructor a row; the command variants of R110; the raw words the host issues. -/

namespace Sys2Proof

/-- One constructor per row of spec/opcode_table.json, every bit of the row's encoding a field.
A command is the effect of its byte arriving at the command register (R10, R113; DEDUCED, log entry 10).
A bus operation is one register access (R230). -/
inductive Instr where
  /-- `0000 h V r` (R83, R121) -/
  | restore (h V : Bool) (r : BitVec 2)
  /-- `0001 h V r` (R83, R122) -/
  | seek (h V : Bool) (r : BitVec 2)
  /-- `001 u h V r` (R83, R123) -/
  | step (u h V : Bool) (r : BitVec 2)
  /-- `010 u h V r` (R83, R124) -/
  | stepIn (u h V : Bool) (r : BitVec 2)
  /-- `011 u h V r` (R83, R125) -/
  | stepOut (u h V : Bool) (r : BitVec 2)
  /-- `100 m S E C x` (R84, R137) -/
  | rdSec (m S E C x : Bool)
  /-- `101 m S E C a0` (R84, R138) -/
  | wrSec (m S E C a0 : Bool)
  /-- `1100 x3 E x1 x0` (R85, R150) -/
  | rdAddr (x3 E x1 x0 : Bool)
  /-- `1101 I` (R86, R165) -/
  | forceInt (I : BitVec 4)
  /-- `1110 x3 E x1 x0` (R85, R154) -/
  | rdTrk (x3 E x1 x0 : Bool)
  /-- `1111 x3 E x1 x0` (R85, R155) -/
  | wrTrk (x3 E x1 x0 : Bool)
  /-- `0 000 z`: `z` is unused on a read and written as 0 (R81, R231) -/
  | rdStatus (z : Byte)
  /-- `1 000 d` (R81, R232) -/
  | wrCmd (d : Byte)
  /-- `0 001 z` (R81, R233) -/
  | rdTrack (z : Byte)
  /-- `1 001 d` (R81, R234) -/
  | wrTrack (d : Byte)
  /-- `0 010 z` (R81, R235) -/
  | rdSector (z : Byte)
  /-- `1 010 d` (R81, R236) -/
  | wrSector (d : Byte)
  /-- `0 011 z` (R81, R237) -/
  | rdData (z : Byte)
  /-- `1 011 d` (R81, R238) -/
  | wrData (d : Byte)
  /-- `0 100 z` (R81, R239) -/
  | rdSys (z : Byte)
  /-- `1 100 d` (R81, R240) -/
  | wrSys (d : Byte)
deriving DecidableEq, Repr

/-- The command variants of the classifier (R110): eleven commands and Unknown. -/
inductive Variant where
  | restore | seek | step | stepIn | stepOut
  | readSector | writeSector
  | readAddress | readTrack | writeTrack
  | forceInterrupt
  | unknown
deriving DecidableEq, Repr

/-- The five variants that move bytes (R156, R173). -/
inductive Transfer where
  | readSector | writeSector | readAddress | readTrack | writeTrack
deriving DecidableEq, Repr

/-- A raw word of the host's stream: a command byte on its way to the command register (R80 item 2),
or a bus operation word in a container of whole bytes, 16 bits for the 12 of R81 (DESIGN CHOICE, log entry 4). -/
inductive HostWord where
  | command (b : Byte)
  | bus (w : BitVec 16)
deriving DecidableEq, Repr

/-- Why a raw word is no instruction. -/
inductive DecodeError where
  /-- The bits above the 12 of a bus word are not 0 (DESIGN CHOICE, log entry 4). -/
  | notABusWord
  /-- `sel` is 5, 6 or 7: "names no register" (R81). -/
  | noSuchRegister (sel : Nat)
  /-- The classifier answers Unknown; no byte does (R89). -/
  | unrecognisedCommand (b : Byte)
deriving DecidableEq, Repr

end Sys2Proof
end

