-- ==== Sys2Proof/WellFormed.lean ====
section
/-! DEFINITION. Well-formed instructions: the ten legal bus words of R81's table and every command byte.
All bounds but one are in the field types; the one check is that a read carries the data byte 0. -/

namespace Sys2Proof

/-- R81: "`data` = the byte written, and 0 in a read." A read with another data byte still decodes (the
table's mask is 0xF00, R98) and still runs; it is not the word a host writes down (DEDUCED, log entry 9). The ignored bits of a
command byte may have any value (R85, R87). -/
def WellFormed (i : Instr) : Bool :=
  match i with
  | .rdStatus z | .rdTrack z | .rdSector z | .rdData z | .rdSys z => z == 0
  | .restore .. | .seek .. | .step .. | .stepIn .. | .stepOut .. => true
  | .rdSec .. | .wrSec .. | .rdAddr .. | .forceInt .. | .rdTrk .. | .wrTrk .. => true
  | .wrCmd _ | .wrTrack _ | .wrSector _ | .wrData _ | .wrSys _ => true

end Sys2Proof
end

