-- ==== Sys2Proof/Decode.lean ====
section
/-! DEFINITION. The classifier (R110), the decoder of command bytes and bus words, and after it the encoder. -/

namespace Sys2Proof

/-! ## The classifier -/

/-- R110, with the masks of R82, in the source's fixed order of tests. The two `unknown` arms are
unreachable (R89). The codes are UNVERIFIED (D1; log entry 16). -/
def classify (b : Byte) : Variant :=
  if b &&& 0xF0#8 = 0xD0#8 then .forceInterrupt
  else if b.getLsbD 7 = false then
    if b &&& 0xF0#8 = 0x00#8 then .restore
    else if b &&& 0xF0#8 = 0x10#8 then .seek
    else if b &&& 0xE0#8 = 0x20#8 then .step
    else if b &&& 0xE0#8 = 0x40#8 then .stepIn
    else if b &&& 0xE0#8 = 0x60#8 then .stepOut
    else .unknown
  else if b &&& 0xE0#8 = 0x80#8 then .readSector
  else if b &&& 0xE0#8 = 0xA0#8 then .writeSector
  else if b &&& 0xF0#8 = 0xC0#8 then .readAddress
  else if b &&& 0xF0#8 = 0xE0#8 then .readTrack
  else if b &&& 0xF0#8 = 0xF0#8 then .writeTrack
  else .unknown

/-! ## The fields of a command byte (R83 to R86) -/

/-- `u`, the "update track register" bit of the three step commands (R83). -/
def fieldU (b : Byte) : Bool := b.getLsbD 4

/-- `r`, the step rate of a Type I command (R83). -/
def fieldR (b : Byte) : BitVec 2 := b.extractLsb' 0 2

/-! ## The decoder -/

/-- A command byte as an instruction: the variant chosen by `classify`, every other bit a field. -/
def decodeCommand (b : Byte) : Except DecodeError Instr :=
  match classify b with
  | .restore => .ok (.restore (b.getLsbD 3) (b.getLsbD 2) (fieldR b))
  | .seek => .ok (.seek (b.getLsbD 3) (b.getLsbD 2) (fieldR b))
  | .step => .ok (.step (fieldU b) (b.getLsbD 3) (b.getLsbD 2) (fieldR b))
  | .stepIn => .ok (.stepIn (fieldU b) (b.getLsbD 3) (b.getLsbD 2) (fieldR b))
  | .stepOut => .ok (.stepOut (fieldU b) (b.getLsbD 3) (b.getLsbD 2) (fieldR b))
  | .readSector =>
    .ok (.rdSec (b.getLsbD 4) (b.getLsbD 3) (b.getLsbD 2) (b.getLsbD 1) (b.getLsbD 0))
  | .writeSector =>
    .ok (.wrSec (b.getLsbD 4) (b.getLsbD 3) (b.getLsbD 2) (b.getLsbD 1) (b.getLsbD 0))
  | .readAddress => .ok (.rdAddr (b.getLsbD 3) (b.getLsbD 2) (b.getLsbD 1) (b.getLsbD 0))
  | .forceInterrupt => .ok (.forceInt (b.extractLsb' 0 4))
  | .readTrack => .ok (.rdTrk (b.getLsbD 3) (b.getLsbD 2) (b.getLsbD 1) (b.getLsbD 0))
  | .writeTrack => .ok (.wrTrk (b.getLsbD 3) (b.getLsbD 2) (b.getLsbD 1) (b.getLsbD 0))
  | .unknown => .error (.unrecognisedCommand b)

/-- The select code of a bus word, bits 10 to 8 (R81). -/
def busSel (w : BitVec 16) : Nat := (w.extractLsb' 8 3).toNat

/-- The data byte of a bus word, bits 7 to 0 (R81). -/
def busData (w : BitVec 16) : Byte := w.extractLsb' 0 8

/-- A bus word as an instruction: `rw` in bit 11, `sel` in bits 10 to 8, `data` below (R81). The data
byte of a read is masked out by the opcode table (R98) and kept here as a field. -/
def decodeBus (w : BitVec 16) : Except DecodeError Instr :=
  if w.extractLsb' 12 4 ≠ 0#4 then .error .notABusWord
  else
    match w.getLsbD 11, busSel w with
    | false, 0 => .ok (.rdStatus (busData w))
    | true, 0 => .ok (.wrCmd (busData w))
    | false, 1 => .ok (.rdTrack (busData w))
    | true, 1 => .ok (.wrTrack (busData w))
    | false, 2 => .ok (.rdSector (busData w))
    | true, 2 => .ok (.wrSector (busData w))
    | false, 3 => .ok (.rdData (busData w))
    | true, 3 => .ok (.wrData (busData w))
    | false, 4 => .ok (.rdSys (busData w))
    | true, 4 => .ok (.wrSys (busData w))
    | _, sel => .error (.noSuchRegister sel)

/-- The decoder, total on every raw word. -/
def decode (w : HostWord) : Except DecodeError Instr :=
  match w with
  | .command b => decodeCommand b
  | .bus v => decodeBus v

/-! ## The encoder, written from the shapes of R81 and R83 to R86 -/

def restoreByte (h V : Bool) (r : BitVec 2) : Byte :=
  0b0000#4 ++ BitVec.ofBool h ++ BitVec.ofBool V ++ r

def seekByte (h V : Bool) (r : BitVec 2) : Byte :=
  0b0001#4 ++ BitVec.ofBool h ++ BitVec.ofBool V ++ r

def stepByte (u h V : Bool) (r : BitVec 2) : Byte :=
  0b001#3 ++ BitVec.ofBool u ++ BitVec.ofBool h ++ BitVec.ofBool V ++ r

def stepInByte (u h V : Bool) (r : BitVec 2) : Byte :=
  0b010#3 ++ BitVec.ofBool u ++ BitVec.ofBool h ++ BitVec.ofBool V ++ r

def stepOutByte (u h V : Bool) (r : BitVec 2) : Byte :=
  0b011#3 ++ BitVec.ofBool u ++ BitVec.ofBool h ++ BitVec.ofBool V ++ r

/-- Five flag bits below a three-bit code: the Type II shape (R84). -/
def typeTwoByte (code : BitVec 3) (m S E C a : Bool) : Byte :=
  code ++ BitVec.ofBool m ++ BitVec.ofBool S ++ BitVec.ofBool E ++ BitVec.ofBool C ++ BitVec.ofBool a

/-- Four flag bits below a four-bit code: the Type III shape (R85). -/
def typeThreeByte (code : BitVec 4) (x3 E x1 x0 : Bool) : Byte :=
  code ++ BitVec.ofBool x3 ++ BitVec.ofBool E ++ BitVec.ofBool x1 ++ BitVec.ofBool x0

def rdSecByte (m S E C x : Bool) : Byte := typeTwoByte 0b100#3 m S E C x

def wrSecByte (m S E C a0 : Bool) : Byte := typeTwoByte 0b101#3 m S E C a0

def rdAddrByte (x3 E x1 x0 : Bool) : Byte := typeThreeByte 0b1100#4 x3 E x1 x0

def rdTrkByte (x3 E x1 x0 : Bool) : Byte := typeThreeByte 0b1110#4 x3 E x1 x0

def wrTrkByte (x3 E x1 x0 : Bool) : Byte := typeThreeByte 0b1111#4 x3 E x1 x0

/-- The Type IV shape (R86). -/
def forceIntByte (I : BitVec 4) : Byte := 0b1101#4 ++ I

/-- The bus word `0000 rw sel data` of R81 in its 16-bit container. -/
def busWord (rw : Bool) (sel : BitVec 3) (data : Byte) : BitVec 16 :=
  0#4 ++ BitVec.ofBool rw ++ sel ++ data

/-- The raw word of an instruction. -/
def encode (i : Instr) : HostWord :=
  match i with
  | .restore h V r => .command (restoreByte h V r)
  | .seek h V r => .command (seekByte h V r)
  | .step u h V r => .command (stepByte u h V r)
  | .stepIn u h V r => .command (stepInByte u h V r)
  | .stepOut u h V r => .command (stepOutByte u h V r)
  | .rdSec m S E C x => .command (rdSecByte m S E C x)
  | .wrSec m S E C a0 => .command (wrSecByte m S E C a0)
  | .rdAddr x3 E x1 x0 => .command (rdAddrByte x3 E x1 x0)
  | .forceInt I => .command (forceIntByte I)
  | .rdTrk x3 E x1 x0 => .command (rdTrkByte x3 E x1 x0)
  | .wrTrk x3 E x1 x0 => .command (wrTrkByte x3 E x1 x0)
  | .rdStatus z => .bus (busWord false 0#3 z)
  | .wrCmd d => .bus (busWord true 0#3 d)
  | .rdTrack z => .bus (busWord false 1#3 z)
  | .wrTrack d => .bus (busWord true 1#3 d)
  | .rdSector z => .bus (busWord false 2#3 z)
  | .wrSector d => .bus (busWord true 2#3 d)
  | .rdData z => .bus (busWord false 3#3 z)
  | .wrData d => .bus (busWord true 3#3 d)
  | .rdSys z => .bus (busWord false 4#3 z)
  | .wrSys d => .bus (busWord true 4#3 d)

/-! ## The opcode table's numbering -/

/-- The raw word whose bits are `w`: a row of 8 bits is a command byte, a longer row a bus word. -/
def tableWord (nbits w : Nat) : HostWord :=
  if nbits ≤ 8 then .command (BitVec.ofNat 8 w) else .bus (BitVec.ofNat 16 w)

/-- The instruction the decoder reads from a word numbered as spec/opcode_table.json numbers it. -/
def decodeTableWord (nbits w : Nat) : Option Instr :=
  match decode (tableWord nbits w) with
  | .ok i => some i
  | .error _ => none

end Sys2Proof
end

