-- ==== Sys2Proof/Config.lean ====
section
/-! DEFINITION. The three open delays of the block (R6), as plain data.
The spec leaves their values open and makes them parameters of the step function (R46).
`State` carries one `Config`, which no operation changes, so that a statement about every state is a
statement about every admissible value of the three delays. The numbers `State.reset` takes are in
Machine/Parameters.lean (DESIGN CHOICE, log entry 1). -/

namespace Sys2Proof

/-- The delays of R6, in clock ticks. -/
structure Config where
  /-- `T_TYPE1`: from acceptance of a Type I command to its completion. -/
  tType1 : Nat
  /-- `T_SEARCH`: from acceptance of a Type II or III command to the start of its transfer. -/
  tSearch : Nat
  /-- `T_BYTE`: the inter-byte gap, and the time a raised DRQ may stay unserviced. -/
  tByte : Nat
deriving DecidableEq, Repr

/-- The constraints of R6's table: `T_TYPE1 >= 1`, `T_SEARCH > T_TYPE1`, `T_BYTE >= 1`. -/
abbrev Config.valid (c : Config) : Prop :=
  1 ≤ c.tType1 ∧ c.tType1 < c.tSearch ∧ 1 ≤ c.tByte

end Sys2Proof
end

