-- ==== Sys2Proof/Machine/Parameters.lean ====
section
/-! DEFINITION. The numbers of the block: geometry (R5), the interface parameters the spec gives a value
(R7), and the reference delays (R6). -/

namespace Sys2Proof.Machine

/-- Tracks (cylinders) per drive (R5). -/
def TRACKS : Nat := 80

/-- Sides (R5). -/
def SIDES : Nat := 2

/-- Sectors per track (R5). -/
def SPT : Nat := 16

/-- Bytes per sector (R5). -/
def SECSIZE : Nat := 256

/-- Bytes per disk image (R5). -/
def IMAGE_SIZE : Nat := TRACKS * SIDES * SPT * SECSIZE

/-- Bytes of one side of one track (R5). -/
def TRACK_BYTES : Nat := SPT * SECSIZE

/-- The sector register value of a track's first sector (R7, D15). -/
def SECTOR_BASE : Nat := 1

/-- The sector-length code Read-Address reports (R7, D18). -/
def LEN_CODE : Byte := 1#8

/-- Bytes moved by Read-Track and Write-Track (R7, D20). -/
def TRACK_RAW_LEN : Nat := TRACK_BYTES

/-- Bits 5 to 0 of a system control register read (R7, D27). -/
def SYS_READ_LOW : BitVec 6 := 0#6

/-- The byte the automatic Restore of a reset pulse puts in `CR` (R203, D26). -/
def AUTO_RESTORE_BYTE : Byte := 0x03#8

/-- `REFCFG` of R6: the delays of the test vectors, "the spec's own, chosen to be round; they say nothing
of a real chip". DESIGN CHOICE (log entry 1, unsafe): they are what `State.reset` holds; no statement
rests on them. -/
def referenceConfig : Config where
  tType1 := 1000
  tSearch := 10000
  tByte := 100

end Sys2Proof.Machine
end

