-- ==== Sys2Proof/Machine/Controller.lean ====
section
/-! DEFINITION. The controller and the drive slots of R20, and their power-on values (R47, R280). -/

namespace Sys2Proof.Machine

/-- Direction of the last step (R30): `In` toward higher track numbers, `Out` toward track 0. -/
inductive StepDir where
  | In | Out
deriving DecidableEq, Repr

/-- The three phases (R34). -/
inductive Phase where
  | idle | searching | transferring
deriving DecidableEq, Repr

/-- The status family (R35). -/
inductive Family where
  | typeI | typeII_III
deriving DecidableEq, Repr

/-- The six bytes Read-Address streams, in their order (R39, R151). -/
structure IdBuf where
  track : Byte
  side : Byte
  sector : Byte
  lenCode : Byte
  crcHigh : Byte
  crcLow : Byte
deriving DecidableEq, Repr

/-- The state of the controller (R20), field by field in the spec's order and under the spec's names. -/
structure Controller where
  /-- command register (R21) -/
  CR : Byte
  /-- track register (R22) -/
  TR : Byte
  /-- sector register (R23) -/
  SR : Byte
  /-- data register (R24) -/
  DR : Byte
  /-- selected drive (R26) -/
  drive : Fin 4
  /-- selected side (R27) -/
  side : Fin 2
  /-- R28 -/
  motorOn : Bool
  /-- last value written to the reset bit (R29) -/
  resetLine : Bool
  /-- R30 -/
  stepDir : StepDir
  /-- R31 -/
  stepRate : BitVec 2
  /-- pending INTRQ (R32) -/
  intrq : Bool
  /-- pending DRQ (R33) -/
  drq : Bool
  /-- R34 -/
  phase : Phase
  /-- R35 -/
  family : Family
  /-- the one pending deadline, an absolute tick count, or none (R36) -/
  deadline : Option Nat
  /-- the absolute tick count of the last tick (R37) -/
  now : Nat
  /-- R38 -/
  byteIndex : Nat
  /-- R39 -/
  idBuf : IdBuf
  /-- latched Lost-data (R40) -/
  stLost : Bool
  /-- latched CRC-error (R40) -/
  stCrc : Bool
  /-- latched Record-not-found, Seek-error (R40) -/
  stErr4 : Bool
  /-- latched Record-type/write-fault (R40) -/
  stRecType : Bool
  /-- latched Write-protect (R40) -/
  stWp : Bool
deriving DecidableEq, Repr

/-- The contents of one disk image (R63): the bytes that are not 0x00, by rising linear offset. An offset
that is not listed reads 0x00 (DESIGN CHOICE, log entry 2). -/
abbrev Memory := List Host.Cell

/-- A drive slot (R43). -/
structure Drive where
  /-- The flat image; it means something only while `hasDisk` (R43, U13). -/
  image : Memory
  hasDisk : Bool
  readOnly : Bool
  dirty : Bool
  /-- The head's position, 0 to `TRACKS` - 1 in every state `Inv` admits (R44 item 2). -/
  physicalTrack : Nat
deriving DecidableEq, Repr

/-- The `NDRIVES` = 4 drive slots (R7, R20). -/
structure Drives where
  d0 : Drive
  d1 : Drive
  d2 : Drive
  d3 : Drive
deriving DecidableEq, Repr

/-- A byte buffer handed to `Insert` or put out by `Flush` (R46): `size` bytes, of which the byte at
offset `a` is that of the first cell listed for `a`, and 0x00 where none is (DESIGN CHOICE, log entry 2). -/
structure Buffer where
  size : Nat
  cells : List Host.Cell
deriving DecidableEq, Repr

/-- The controller at power-on (R47). -/
def Controller.powerOn : Controller where
  CR := 0x00#8
  TR := 0x00#8
  SR := 0x01#8
  DR := 0x00#8
  drive := 0
  side := 0
  motorOn := false
  resetLine := false
  stepDir := .Out
  stepRate := 0#2
  intrq := false
  drq := false
  phase := .idle
  family := .typeI
  deadline := none
  now := 0
  byteIndex := 0
  idBuf := ⟨0#8, 0#8, 0#8, 0#8, 0#8, 0#8⟩
  stLost := false
  stCrc := false
  stErr4 := false
  stRecType := false
  stWp := false

/-- An empty slot, as constructed (R43, R47). Its image is unspecified there and never read; the model
lists nothing (DESIGN CHOICE, log entry 3). -/
def Drive.powerOn : Drive where
  image := []
  hasDisk := false
  readOnly := false
  dirty := false
  physicalTrack := 0

/-- The four empty slots at power-on (R280). -/
def Drives.powerOn : Drives where
  d0 := Drive.powerOn
  d1 := Drive.powerOn
  d2 := Drive.powerOn
  d3 := Drive.powerOn

end Sys2Proof.Machine
end

