-- ==== Sys2Proof/Machine/State.lean ====
section
/-! DEFINITION. The state of the machine (R20) as plain data, the host's stream of operations beside it,
and the reasons a step can stop. -/

namespace Sys2Proof.Machine

/-- One operation of the host (R10, R11, R95). The register accesses and commands are raw words that the
step decodes; the others have no encoding in the opcode table. -/
inductive HostOp where
  /-- A register access or a command byte. -/
  | word (w : HostWord)
  /-- `Tick(abs, delta)` (R170, R241). -/
  | tick (abs delta : Nat)
  /-- `Insert(d, bytes, ro)` (R218). -/
  | insert (d : Nat) (bytes : Buffer) (ro : Bool)
  /-- `Eject(d)` (R219). -/
  | eject (d : Nat)
  /-- `Flush(d)` (R220). -/
  | flush (d : Nat)
  /-- `RESET`, the system reset (R242). -/
  | reset
deriving DecidableEq, Repr

/-- What an operation returns to the host or puts out. -/
inductive Output where
  /-- The byte a register read returned (R231, R233, R235, R237, R239). -/
  | read (b : Byte)
  /-- `Insert`'s result for slot `d`: ok or failure (R218). -/
  | inserted (d : Fin 4) (ok : Bool)
  /-- The copy of slot `d`'s image a `Flush` wrote to backing storage (R220). -/
  | flushed (d : Fin 4) (copy : Buffer)
deriving DecidableEq, Repr

/-- The machine of R20 (`ctl`, `drv`) with the model's own fields beside it: the open delays (R46; log
entry 1), the operations the host has still to issue (R68; log entry 5) and what the operations so far
have returned, the newest first (R12; log entry 6). -/
structure State where
  ctl : Controller
  drv : Drives
  cfg : Config
  input : List HostOp
  trace : List Output
deriving DecidableEq, Repr

/-- What stops the machine. "Inside the contract no operation faults, traps or blocks" (R244), and none
does from a state that meets `Inv` (Safety.lean): these names stand for the states R171 calls impossible
(DEDUCED, log entry 11).
Each is raised by a tick alone, and is safe: the machine stops where the spec gives no effect. -/
inductive Fault where
  /-- Raised by `fire`: a deadline in phase Idle, "impossible" (R171, R44 item 5). Safe. -/
  | deadlineWhileIdle
  /-- Raised by `fire`: a phase other than Idle while `CR` holds a command that neither settles nor
  transfers (R44 items 5 and 7). Safe. -/
  | noActiveTransfer
  /-- Raised by `present`: a seventh byte of Read-Address's six (R44 item 7). Safe. -/
  | idBufIndex
  /-- Raised by `fireDue`: more deadlines in one tick than R182 allows. Safe. -/
  | tickBound
deriving DecidableEq, Repr

/-- Why an operation has no meaning. All but the first are operations outside the host contract, which the
spec has refused (R244, D37; log entry 12). -/
inductive Refusal where
  /-- Raised by no instruction of this model: every arm of `exec` has its meaning. Safe. -/
  | notModelled (mnemonic : String)
  /-- Raised by `perform`: the bits above the 12 of a bus word are not 0 (DESIGN CHOICE, log entry 4). Safe. -/
  | notABusWord
  /-- Raised by `perform`: "`sel` = 5, 6 or 7 names no register: such a word is outside the host contract
  and is refused" (R81). Safe. -/
  | noSuchRegister (sel : Nat)
  /-- Raised by `tick`: `abs < now`, "host contract; otherwise refused" (R170, D9). Safe. -/
  | clockBackwards
  /-- Raised by `withSlot`: a slot that is not below `NDRIVES` (R218, R244, D37). Safe. -/
  | noSuchSlot (d : Nat)
deriving DecidableEq, Repr

/-- The machine at power-on, for any delays. -/
def State.powerOn (cfg : Config) : State where
  ctl := Controller.powerOn
  drv := Drives.powerOn
  cfg := cfg
  input := []
  trace := []

/-- The machine right after power-on (R47, R280), at the reference delays (DESIGN CHOICE, log entry 1). -/
def State.reset : State := State.powerOn referenceConfig

end Sys2Proof.Machine
end

