-- ==== Sys2Proof/Machine/Operands.lean ====
section
/-! DEFINITION. What a command's operands are (R93): the classes of the variants, the sector addresser's
address forms (R211, R213, R173), the ID fields of Read-Address (R151, R152). -/

namespace Sys2Proof.Machine

/-! ## Classes of variants -/

/-- `FamilyOf` (R111): Unknown has none. -/
def familyOf (v : Variant) : Option Family :=
  match v with
  | .restore | .seek | .step | .stepIn | .stepOut | .forceInterrupt => some .typeI
  | .readSector | .writeSector | .readAddress | .readTrack | .writeTrack => some .typeII_III
  | .unknown => none

/-- The five Type I commands (R110). Force-Interrupt has their family but is Type IV. -/
def isTypeOne (v : Variant) : Bool :=
  match v with
  | .restore | .seek | .step | .stepIn | .stepOut => true
  | .readSector | .writeSector | .readAddress | .readTrack | .writeTrack => false
  | .forceInterrupt | .unknown => false

/-- The Type II and III commands, the ones that move bytes (R173). -/
def transferOf (v : Variant) : Option Transfer :=
  match v with
  | .readSector => some .readSector
  | .writeSector => some .writeSector
  | .readAddress => some .readAddress
  | .readTrack => some .readTrack
  | .writeTrack => some .writeTrack
  | .restore | .seek | .step | .stepIn | .stepOut | .forceInterrupt | .unknown => none

/-- `NeedsReady` (R112): the five Type II and III commands. -/
def needsReady (v : Variant) : Bool := (transferOf v).isSome

/-- The active command is not a field: it is `classify(CR)` (R45). -/
def activeVariant (s : State) : Variant := classify s.ctl.CR

/-- The active transfer, when the active command is one. -/
def activeTransfer (s : State) : Option Transfer := transferOf (activeVariant s)

/-- Image or registers to host: the commands whose bytes a data-register read consumes (R176). -/
def isReadTransfer (k : Transfer) : Bool :=
  match k with
  | .readSector | .readAddress | .readTrack => true
  | .writeSector | .writeTrack => false

/-! ## The sector addresser's formulas -/

/-- `Lin(t, s, r, o)` (R211); `none` is "invalid" (R212). -/
def lin (t s r o : Nat) : Option Nat :=
  if t < TRACKS ∧ s < SIDES ∧ SECTOR_BASE ≤ r ∧ r < SECTOR_BASE + SPT ∧ o < SECSIZE then
    some (((t * SIDES + s) * SPT + (r - SECTOR_BASE)) * SECSIZE + o)
  else none

/-- `TrackLin(t, s, o)` (R213). -/
def trackLin (t s o : Nat) : Option Nat :=
  if t < TRACKS ∧ s < SIDES ∧ o < TRACK_BYTES then
    some ((t * SIDES + s) * TRACK_BYTES + o)
  else none

/-- `XferLen` (R173). -/
def xferLen (k : Transfer) : Nat :=
  match k with
  | .readSector | .writeSector => SECSIZE
  | .readAddress => 6
  | .readTrack | .writeTrack => TRACK_RAW_LEN

/-- `XferAddr` (R173): the linear offset of byte `i`, from the registers and the side as they stand;
Read-Address has none. -/
def xferAddr (k : Transfer) (i : Nat) (s : State) : Option Nat :=
  match k with
  | .readSector | .writeSector => lin s.ctl.TR.toNat s.ctl.side.val s.ctl.SR.toNat i
  | .readTrack | .writeTrack => trackLin s.ctl.TR.toNat s.ctl.side.val i
  | .readAddress => none

/-! ## The fields of Read-Address -/

/-- One bit of the CRC's inner loop (R152). -/
def crcShift (crc : BitVec 16) : BitVec 16 :=
  if crc.getLsbD 15 then (crc <<< 1) ^^^ 0x1021#16 else crc <<< 1

/-- `crcShift` a number of times. -/
def crcShifts (n : Nat) (crc : BitVec 16) : BitVec 16 :=
  match n with
  | 0 => crc
  | k + 1 => crcShifts k (crcShift crc)

/-- One byte of the CRC's outer loop (R152). -/
def crcByte (crc : BitVec 16) (x : Byte) : BitVec 16 :=
  crcShifts 8 (crc ^^^ (x.setWidth 16 <<< 8))

/-- `idCrc(t, s, r, n)` (R152): the default the spec gives the configuration function (D19). -/
def idCrc (t s r n : Byte) : BitVec 16 :=
  [0xA1#8, 0xA1#8, 0xA1#8, 0xFE#8, t, s, r, n].foldl crcByte 0xFFFF#16

/-- `IdFields()` (R151), from the registers as they stand. -/
def idFields (s : State) : IdBuf :=
  let side : Byte := BitVec.ofNat 8 s.ctl.side.val
  let crc := idCrc s.ctl.TR side s.ctl.SR LEN_CODE
  { track := s.ctl.TR, side := side, sector := s.ctl.SR, lenCode := LEN_CODE,
    crcHigh := crc.extractLsb' 8 8, crcLow := crc.extractLsb' 0 8 }

/-- `idBuf[i]` (R39): there are six bytes. -/
def idByte (b : IdBuf) (i : Nat) : Option Byte :=
  match i with
  | 0 => some b.track
  | 1 => some b.side
  | 2 => some b.sector
  | 3 => some b.lenCode
  | 4 => some b.crcHigh
  | 5 => some b.crcLow
  | _ => none

end Sys2Proof.Machine
end

