-- ==== Sys2Proof/Machine/Ops.lean ====
section
/-! DEFINITION. The operations the meanings share: image bytes, drive slots, the error conditions,
completion and its acknowledge, acceptance, reset of the controller's own fields. -/

namespace Sys2Proof.Machine

/-! ## Image bytes -/

/-- What an offset that is not listed reads as (DESIGN CHOICE, log entry 2). -/
def Memory.unlisted : Byte := 0x00#8

/-- The byte at a linear offset. -/
def Memory.read (m : Memory) (a : Nat) : Byte :=
  match m with
  | [] => Memory.unlisted
  | (b, v) :: rest => if b = a then v else Memory.read rest a

/-- `v` put in front of a memory at `a`, or nothing if an unlisted offset reads `v` anyway. -/
def Memory.push (a : Nat) (v : Byte) (m : Memory) : Memory :=
  if v = Memory.unlisted then m else (a, v) :: m

/-- One byte stored; the form stays canonical. -/
def Memory.write (m : Memory) (a : Nat) (v : Byte) : Memory :=
  match m with
  | [] => Memory.push a v []
  | (b, w) :: rest =>
    if a < b then Memory.push a v ((b, w) :: rest)
    else if a = b then Memory.push a v rest
    else (b, w) :: Memory.write rest a v

/-- Offsets rising from `lo`, each inside the image, no entry equal to what an unlisted offset reads as. -/
def Memory.wfFrom (lo : Nat) (m : Memory) : Bool :=
  match m with
  | [] => true
  | (a, v) :: rest =>
    decide (lo ≤ a) && decide (a < IMAGE_SIZE) && decide (v ≠ Memory.unlisted) && Memory.wfFrom (a + 1) rest

/-- The canonical form of an image. -/
def Memory.wf (m : Memory) : Bool := Memory.wfFrom 0 m

/-- The cells of a buffer as an image: the first cell listed for an offset counts. -/
def Memory.ofCells (cells : List Host.Cell) : Memory :=
  match cells with
  | [] => []
  | (a, v) :: rest =>
    if a < IMAGE_SIZE then Memory.write (Memory.ofCells rest) a v else Memory.ofCells rest

/-! ## Drive slots -/

/-- `drv[d]`. -/
def Drives.get (ds : Drives) (d : Fin 4) : Drive :=
  match d with
  | 0 => ds.d0
  | 1 => ds.d1
  | 2 => ds.d2
  | 3 => ds.d3

/-- `drv[d] <- x`. -/
def Drives.set (ds : Drives) (d : Fin 4) (x : Drive) : Drives :=
  match d with
  | 0 => { ds with d0 := x }
  | 1 => { ds with d1 := x }
  | 2 => { ds with d2 := x }
  | 3 => { ds with d3 := x }

/-- The selected drive, `drv[drive]` (R26). -/
def State.selected (s : State) : Drive := s.drv.get s.ctl.drive

/-- `drv[d] <- x` in the machine. -/
def State.setDrive (s : State) (d : Fin 4) (x : Drive) : State := { s with drv := s.drv.set d x }

/-- The byte at offset `a` of slot `d`'s image. -/
def State.imageByte (s : State) (d : Fin 4) (a : Nat) : Byte := Memory.read (s.drv.get d).image a

/-- `Ready()` (R193). -/
def ready (s : State) : Bool := s.ctl.motorOn && s.selected.hasDisk

/-! ## The sector addresser's accesses -/

/-- Why an image write fails (R215). -/
inductive WriteFail where
  | range
  | readOnly
deriving DecidableEq, Repr

/-- `ImgRead(d, a)` (R214); `none` is "fail". -/
def imgRead (d : Fin 4) (a : Option Nat) (s : State) : Option Byte :=
  match a with
  | none => none
  | some n => if (s.drv.get d).hasDisk then some (s.imageByte d n) else none

/-- `ImgOk(d, a)` (R217). -/
def imgOk (d : Fin 4) (a : Option Nat) (s : State) : Bool := (s.drv.get d).hasDisk && a.isSome

/-- `ImgWrite(d, a, x)` (R215). -/
def imgWrite (d : Fin 4) (a : Option Nat) (x : Byte) (s : State) : Except WriteFail State :=
  match a with
  | none => .error .range
  | some n =>
    let drive := s.drv.get d
    if drive.hasDisk = false then .error .range
    else if drive.readOnly then .error .readOnly
    else .ok (s.setDrive d { drive with image := Memory.write drive.image n x, dirty := true })

/-- `clamp(v, 0, TRACKS-1)` (R9, R216). -/
def clampTrack (v : Int) : Nat := (max 0 (min v (Int.ofNat (TRACKS - 1)))).toNat

/-- `MovePhys(d, delta)` (R216). -/
def movePhys (d : Fin 4) (delta : Int) (s : State) : State :=
  let drive := s.drv.get d
  s.setDrive d { drive with physicalTrack := clampTrack (Int.ofNat drive.physicalTrack + delta) }

/-! ## The completion sequence, the block's "trap entry" (R262), and its acknowledge, the "trap return" (R263) -/

/-- `Complete()` (R180): "clear Busy, raise INTRQ", DRQ cleared, and the sector-register quirk of
Read-Address (R153). -/
def complete (s : State) : State :=
  { s with ctl := { s.ctl with
      phase := .idle
      deadline := none
      drq := false
      intrq := true
      SR := if activeVariant s = .readAddress then s.ctl.idBuf.track else s.ctl.SR } }

/-- `TypeOneDone()` (R127). -/
def typeOneDone (s : State) : State :=
  { s with ctl := { s.ctl with phase := .idle, deadline := none, intrq := true } }

/-- The acknowledge of a status read (R194): `intrq` cleared, nothing else. -/
def acknowledge (s : State) : State := { s with ctl := { s.ctl with intrq := false } }

/-! ## The error conditions (R250) -/

/-- `raise NotReady` at acceptance (R251, R136): no latch, INTRQ raised. -/
def raiseNotReady (s : State) : State := { s with ctl := { s.ctl with intrq := true } }

/-- `raise WriteProtect` at acceptance (R252, R139): `stWp`, INTRQ, `phase` left Idle. -/
def raiseWriteProtectAtAcceptance (s : State) : State :=
  { s with ctl := { s.ctl with stWp := true, intrq := true } }

/-- `raise WriteProtect` in mid-transfer (R252, R177). -/
def raiseWriteProtect (s : State) : State :=
  complete { s with ctl := { s.ctl with stWp := true } }

/-- `raise RecordNotFound` (R254; UNVERIFIED, D16; log entry 17). -/
def raiseRecordNotFound (s : State) : State :=
  complete { s with ctl := { s.ctl with stErr4 := true } }

/-- `raise LostData` (R253): the latch; the byte's fate is `lostByte`'s. -/
def raiseLostData (s : State) : State := { s with ctl := { s.ctl with stLost := true } }

/-! ## Acceptance of a command -/

/-- The five latched bits cleared together (R40, R196). -/
def clearLatches (s : State) : State :=
  { s with ctl := { s.ctl with
      stLost := false, stCrc := false, stErr4 := false, stRecType := false, stWp := false } }

/-- The prologue of `Accept(b, v)` (R114): `CR`, `family`, the latched bits, `intrq`. -/
def acceptPrologue (b : Byte) (family : Family) (s : State) : State :=
  let c := clearLatches { s with ctl := { s.ctl with CR := b, family := family } }
  { c with ctl := { c.ctl with intrq := false } }

/-- A write of command byte `b` that is not a Force-Interrupt (R113): ignored while Busy, otherwise
accepted and started with `start`. -/
def whenIdle (start : State → State) (s : State) : State :=
  if s.ctl.phase = .idle then start s else s

/-- A deadline `delay` ticks after the last tick, and Busy set (R120, R135). -/
def enterSearching (delay : Nat) (s : State) : State :=
  { s with ctl := { s.ctl with phase := .searching, deadline := some (s.ctl.now + delay) } }

/-! ## Reset of the controller's own fields -/

/-- `ResetCore()` (R202): every field of the controller at its power-on value but the selections, the
reset line and the clock. -/
def resetCore (s : State) : State :=
  { s with ctl := { Controller.powerOn with
      drive := s.ctl.drive
      side := s.ctl.side
      motorOn := s.ctl.motorOn
      resetLine := s.ctl.resetLine
      now := s.ctl.now } }

/-- A value returned to the host or put out. -/
def State.emit (s : State) (o : Output) : State := { s with trace := o :: s.trace }

end Sys2Proof.Machine
end

