-- ==== Sys2Proof/Machine/Flags.lean ====
section
/-! DEFINITION. The bytes the block builds from its flags when a register is read: the status byte in its
two layouts (R190 to R193) and the system control read (R204); the two output signals (R243). -/

namespace Sys2Proof.Machine

/-- Eight bits, bit 7 first. -/
def byteOfBits (b7 b6 b5 b4 b3 b2 b1 b0 : Bool) : Byte :=
  BitVec.ofBool b7 ++ BitVec.ofBool b6 ++ BitVec.ofBool b5 ++ BitVec.ofBool b4 ++
    BitVec.ofBool b3 ++ BitVec.ofBool b2 ++ BitVec.ofBool b1 ++ BitVec.ofBool b0

/-- Busy is `phase != Idle`, not a stored bit (R44 item 3). -/
def busy (s : State) : Bool := decide (s.ctl.phase ≠ .idle)

/-- The Type I layout (R191; bits 1, 2, 5, 6 UNVERIFIED, D22; log entry 17). -/
def statusTypeI (s : State) : Byte :=
  byteOfBits (!ready s) (s.selected.hasDisk && s.selected.readOnly) s.ctl.motorOn s.ctl.stErr4
    s.ctl.stCrc (decide (s.selected.physicalTrack = 0)) false (busy s)

/-- The Type II/III layout (R192; bits 3, 5, 6 UNVERIFIED, D23; log entry 17). -/
def statusTypeII_III (s : State) : Byte :=
  byteOfBits (!ready s) s.ctl.stWp s.ctl.stRecType s.ctl.stErr4 s.ctl.stCrc s.ctl.stLost s.ctl.drq
    (busy s)

/-- `Status()` (R190): the layout follows `family`, never `phase` (R44 item 4). -/
def status (s : State) : Byte :=
  match s.ctl.family with
  | .typeI => statusTypeI s
  | .typeII_III => statusTypeII_III s

/-- `ReadSys()` (R204): INTRQ in bit 7, DRQ in bit 6. -/
def readSys (s : State) : Byte :=
  BitVec.ofBool s.ctl.intrq ++ BitVec.ofBool s.ctl.drq ++ SYS_READ_LOW

/-- The INTRQ output, "equal at every moment" to the flag (R243). -/
def intrqLine (s : State) : Bool := s.ctl.intrq

/-- The DRQ output (R243). -/
def drqLine (s : State) : Bool := s.ctl.drq

end Sys2Proof.Machine
end

