-- ==== Sys2Proof/Machine/PhaseEngine.lean ====
section
/-! DEFINITION. The phase engine: presentation, request, consumption and loss of a byte (R174 to R179), the
firing of a deadline (R171, R172), the tick (R170). -/

namespace Sys2Proof.Machine

/-! ## One byte -/

/-- DRQ raised at time `d`, with the service window `T_BYTE` (R174, R175). -/
def raiseDrq (d : Nat) (s : State) : State :=
  { s with ctl := { s.ctl with drq := true, deadline := some (d + s.cfg.tByte) } }

/-- Byte `r` of a read offered at time `d` (R174). -/
def offer (r : Byte) (d : Nat) (s : State) : State :=
  raiseDrq d { s with ctl := { s.ctl with DR := r } }

/-- `Present(d)` of an image byte (R174): Record-not-found if the access fails. -/
def presentImage (k : Transfer) (d : Nat) (s : State) : State :=
  match imgRead s.ctl.drive (xferAddr k s.ctl.byteIndex s) s with
  | some r => offer r d s
  | none => raiseRecordNotFound s

/-- `Present(d)` of an ID byte (R174). There are six; a seventh is asked for in no state `Inv` admits. -/
def presentId (d : Nat) (s : State) : Except Fault State :=
  match idByte s.ctl.idBuf s.ctl.byteIndex with
  | some r => .ok (offer r d s)
  | none => .error .idBufIndex

/-- `Request(d)` (R175). -/
def request (k : Transfer) (d : Nat) (s : State) : State :=
  if imgOk s.ctl.drive (xferAddr k s.ctl.byteIndex s) s then raiseDrq d s else raiseRecordNotFound s

/-- `NextByte(d)` (R179): `Present` for a read command, `Request` for a write command. -/
def nextByte (k : Transfer) (d : Nat) (s : State) : Except Fault State :=
  match k with
  | .readAddress => presentId d s
  | .readSector | .readTrack => .ok (presentImage k d s)
  | .writeSector | .writeTrack => .ok (request k d s)

/-- The byte index advanced by one (R176 to R178). -/
def advance (s : State) : State :=
  { s with ctl := { s.ctl with byteIndex := s.ctl.byteIndex + 1 } }

/-- The end of a consumption (R176, R177): DRQ cleared, the index advanced, then completion after the last
byte or the inter-byte deadline, counted from `now`. -/
def consumed (k : Transfer) (s : State) : State :=
  let t := advance { s with ctl := { s.ctl with drq := false } }
  if t.ctl.byteIndex = xferLen k then complete t
  else { t with ctl := { t.ctl with deadline := some (t.ctl.now + t.cfg.tByte) } }

/-- `ConsumeRead()` (R176). -/
def consumeRead (k : Transfer) (s : State) : State := consumed k s

/-- `ConsumeWrite(x)` (R177), run after `DR <- x`. -/
def consumeWrite (k : Transfer) (x : Byte) (s : State) : State :=
  match imgWrite s.ctl.drive (xferAddr k s.ctl.byteIndex s) x s with
  | .error .readOnly => raiseWriteProtect s
  | .error .range => raiseRecordNotFound s
  | .ok t => consumed k t

/-- `LostByte(d)` (R178): Lost-data latched, the byte skipped, the next one at once. -/
def lostByte (k : Transfer) (d : Nat) (s : State) : Except Fault State :=
  let t := advance (raiseLostData s)
  if t.ctl.byteIndex = xferLen k then .ok (complete t) else nextByte k d t

/-! ## Deadlines -/

/-- The fields set on entry to Transferring (R172). -/
def enterTransferring (k : Transfer) (s : State) : State :=
  { s with ctl := { s.ctl with
      phase := .transferring
      byteIndex := 0
      idBuf := if k = .readAddress then idFields s else s.ctl.idBuf } }

/-- `BeginTransfer(d)` (R172): byte 0 at time `d`. -/
def beginTransfer (k : Transfer) (d : Nat) (s : State) : Except Fault State :=
  nextByte k d (enterTransferring k s)

/-- `Fire(d)` (R171). -/
def fire (d : Nat) (s : State) : Except Fault State :=
  match s.ctl.phase with
  | .idle => .error .deadlineWhileIdle
  | .searching =>
    if isTypeOne (activeVariant s) then .ok (typeOneDone s)
    else
      match activeTransfer s with
      | some k => beginTransfer k d s
      | none => .error .noActiveTransfer
  | .transferring =>
    match activeTransfer s with
    | some k => if s.ctl.drq then lostByte k d s else nextByte k d s
    | none => .error .noActiveTransfer

/-- The pending deadline, if `now` has reached it: the test is `d <= now` (R170). -/
def dueDeadline (s : State) : Option Nat :=
  match s.ctl.deadline with
  | none => none
  | some d => if d ≤ s.ctl.now then some d else none

/-- R182: one tick fires at most `2 + 2 * XferLen(v)` deadlines. -/
def tickFuel (s : State) : Nat :=
  match activeTransfer s with
  | some k => 2 + 2 * xferLen k
  | none => 2

/-- The loop of `Tick` (R170): every due deadline fired, each at its own time, at most `fuel` of them. -/
def fireDue (fuel : Nat) (s : State) : Except Fault State :=
  match dueDeadline s with
  | none => .ok s
  | some d =>
    match fuel with
    | 0 => .error .tickBound
    | n + 1 =>
      match fire d s with
      | .ok t => fireDue n t
      | .error e => .error e

/-- The clock at an absolute tick count (R37). -/
def setNow (abs : Nat) (s : State) : State := { s with ctl := { s.ctl with now := abs } }

/-- `Tick(abs, delta)` (R170). `abs` is authoritative and no rule reads `delta` (log entry 13). -/
def tick (abs : Nat) (_delta : Nat) (s : State) : Host.Outcome State Fault Refusal :=
  if abs < s.ctl.now then .refused .clockBackwards
  else
    match fireDue (tickFuel s) (setNow abs s) with
    | .ok t => .next t
    | .error e => .fault e

end Sys2Proof.Machine
end

