-- ==== Sys2Proof/Machine/TypeOne.lean ====
section
/-! DEFINITION. The Type I commands: Restore, Seek, Step, Step-In, Step-Out (R120 to R126). -/

namespace Sys2Proof.Machine

/-- `TypeOne(b, v)` (R120): the step rate, the command's own movement, then the settle. -/
def typeOne (b : Byte) (move : State → State) (s : State) : State :=
  let t := move { s with ctl := { s.ctl with stepRate := fieldR b } }
  enterSearching t.cfg.tType1 t

/-- A Type I command byte at the command register: R113, R114, R120. -/
def typeOneCommand (b : Byte) (move : State → State) (s : State) : State :=
  whenIdle (fun t => typeOne b move (acceptPrologue b .typeI t)) s

/-- `DoRestore()` (R121): `MovePhys(d, -physicalTrack)` is the head's way to track 0 (R216). -/
def doRestore (s : State) : State :=
  let t := movePhys s.ctl.drive (-Int.ofNat s.selected.physicalTrack) s
  { t with ctl := { t.ctl with TR := 0#8, stepDir := .Out } }

/-- `DoSeek()` (R122). -/
def doSeek (s : State) : State :=
  let delta : Int := Int.ofNat s.ctl.DR.toNat - Int.ofNat s.ctl.TR.toNat
  let dir : StepDir := if delta > 0 then .In else if delta < 0 then .Out else s.ctl.stepDir
  let t := movePhys s.ctl.drive delta s
  { t with ctl := { t.ctl with stepDir := dir, TR := s.ctl.DR } }

/-- The head's move of one track in a direction (R126). -/
def stepDelta (dir : StepDir) : Int :=
  match dir with
  | .In => 1
  | .Out => -1

/-- The track register one step on (R126): it wraps at 255 on the way in and holds at 0 on the way out. -/
def stepTrackRegister (dir : StepDir) (tr : Byte) : Byte :=
  match dir with
  | .In => tr + 1#8
  | .Out => if tr = 0#8 then 0#8 else tr - 1#8

/-- `StepCore(dir, u)` (R126). -/
def stepCore (dir : StepDir) (u : Bool) (s : State) : State :=
  let t := movePhys s.ctl.drive (stepDelta dir) s
  if u then { t with ctl := { t.ctl with TR := stepTrackRegister dir t.ctl.TR } } else t

/-- `DoStep(u)` (R123): the stored direction. -/
def doStep (u : Bool) (s : State) : State := stepCore s.ctl.stepDir u s

/-- `DoStepIn(u)` (R124). -/
def doStepIn (u : Bool) (s : State) : State :=
  stepCore .In u { s with ctl := { s.ctl with stepDir := .In } }

/-- `DoStepOut(u)` (R125). -/
def doStepOut (u : Bool) (s : State) : State :=
  stepCore .Out u { s with ctl := { s.ctl with stepDir := .Out } }

/-! ## A command byte of each variant at the command register -/

def restoreCommand (b : Byte) (s : State) : State := typeOneCommand b doRestore s

def seekCommand (b : Byte) (s : State) : State := typeOneCommand b doSeek s

def stepCommand (b : Byte) (s : State) : State := typeOneCommand b (doStep (fieldU b)) s

def stepInCommand (b : Byte) (s : State) : State := typeOneCommand b (doStepIn (fieldU b)) s

def stepOutCommand (b : Byte) (s : State) : State := typeOneCommand b (doStepOut (fieldU b)) s

/-! ## Meanings -/

/-- R121. -/
def execRestore (h V : Bool) (r : BitVec 2) (s : State) : Host.Outcome State Fault Refusal :=
  .next (restoreCommand (restoreByte h V r) s)

/-- R122. -/
def execSeek (h V : Bool) (r : BitVec 2) (s : State) : Host.Outcome State Fault Refusal :=
  .next (seekCommand (seekByte h V r) s)

/-- R123. -/
def execStep (u h V : Bool) (r : BitVec 2) (s : State) : Host.Outcome State Fault Refusal :=
  .next (stepCommand (stepByte u h V r) s)

/-- R124. -/
def execStepIn (u h V : Bool) (r : BitVec 2) (s : State) : Host.Outcome State Fault Refusal :=
  .next (stepInCommand (stepInByte u h V r) s)

/-- R125. -/
def execStepOut (u h V : Bool) (r : BitVec 2) (s : State) : Host.Outcome State Fault Refusal :=
  .next (stepOutCommand (stepOutByte u h V r) s)

end Sys2Proof.Machine
end

