-- ==== Sys2Proof/Machine/SystemControl.lean ====
section
/-! DEFINITION. The system control register (R200 to R203) and the system reset (R242). -/

namespace Sys2Proof.Machine

/-- The drive field of a written byte, bits 1 to 0 (R90; positions UNVERIFIED, D5; log entry 16). -/
def sysDrive (v : Byte) : Fin 4 := ⟨v.toNat % 4, Nat.mod_lt _ (by decide)⟩

/-- The reset bit, bit 2 (R90). -/
def sysReset (v : Byte) : Bool := v.getLsbD 2

/-- The motor bit, bit 3 (R90). -/
def sysMotor (v : Byte) : Bool := v.getLsbD 3

/-- The side field, `1 - v[4]` (R90). -/
def sysSide (v : Byte) : Fin 2 := if v.getLsbD 4 then 0 else 1

/-- The selections of a written byte (R200). -/
def sysSelect (v : Byte) (s : State) : State :=
  { s with ctl := { s.ctl with
      drive := sysDrive v
      side := sysSide v
      motorOn := sysMotor v
      resetLine := sysReset v } }

/-- `AutoRestore()` (R203): `CR` and `family`, then `TypeOne(0x03, Restore)`. -/
def autoRestore (s : State) : State :=
  typeOne AUTO_RESTORE_BYTE doRestore
    { s with ctl := { s.ctl with CR := AUTO_RESTORE_BYTE, family := .typeI } }

/-- `ResetPulse()` (R201). -/
def resetPulse (s : State) : State := autoRestore (resetCore s)

/-- `WriteSys(v)` (R200): the selections first, then the pulse on a 0 to 1 change of the reset bit. -/
def writeSys (v : Byte) (s : State) : State :=
  let t := sysSelect v s
  if s.ctl.resetLine = false ∧ t.ctl.resetLine = true then resetPulse t else t

/-- `SystemReset()` (R242). -/
def systemReset (s : State) : State :=
  let t := resetCore s
  { t with ctl := { t.ctl with drive := 0, side := 0, motorOn := false, resetLine := false } }

end Sys2Proof.Machine
end

