-- ==== Sys2Proof/Machine/TypeFour.lean ====
section
/-! DEFINITION. Force-Interrupt (R165) and the Unknown variant (R166). -/

namespace Sys2Proof.Machine

/-- `ForceInterrupt(b)` (R165), in any phase. -/
def forceInterruptCommand (b : Byte) (s : State) : State :=
  clearLatches { s with ctl := { s.ctl with
      CR := b
      phase := .idle
      drq := false
      deadline := none
      family := .typeI
      intrq := true } }

/-- `UnknownCommand(b)` (R166), ignored while Busy (R113). No byte is Unknown (R89; log entry 14). -/
def unknownCommand (b : Byte) (s : State) : State :=
  whenIdle (fun t => { t with ctl := { t.ctl with CR := b } }) s

/-- R165: the four low bits are ignored. -/
def execForceInt (I : BitVec 4) (s : State) : Host.Outcome State Fault Refusal :=
  .next (forceInterruptCommand (forceIntByte I) s)

end Sys2Proof.Machine
end

