-- ==== Sys2Proof/Machine/TypeTwo.lean ====
section
/-! DEFINITION. The start common to Types II and III (R135) and the Type II commands Read-Sector and
Write-Sector (R137, R138). The bytes are the phase engine's. -/

namespace Sys2Proof.Machine

/-- `TypeTwoThree(b, v)` (R135) after the tests: Busy set, the search deadline scheduled. -/
def startSearch (s : State) : State := enterSearching s.cfg.tSearch s

/-- `TypeTwoThree` for a read command: the readiness test, then the search (R135, R136). -/
def startRead (s : State) : State := if ready s then startSearch s else raiseNotReady s

/-- `TypeTwoThree` for a write command: readiness first, then the read-only test (R135, R139, R261 item 1). -/
def startWrite (s : State) : State :=
  if ready s then
    if s.selected.readOnly then raiseWriteProtectAtAcceptance s else startSearch s
  else raiseNotReady s

/-- A Type II or III command byte at the command register: R113, R114, R135. -/
def typeTwoThreeCommand (b : Byte) (start : State → State) (s : State) : State :=
  whenIdle (fun t => start (acceptPrologue b .typeII_III t)) s

def rdSecCommand (b : Byte) (s : State) : State := typeTwoThreeCommand b startRead s

def wrSecCommand (b : Byte) (s : State) : State := typeTwoThreeCommand b startWrite s

/-- R137: the flag bits are ignored (R87). -/
def execRdSec (m S E C x : Bool) (s : State) : Host.Outcome State Fault Refusal :=
  .next (rdSecCommand (rdSecByte m S E C x) s)

/-- R138: the flag bits are ignored (R87). -/
def execWrSec (m S E C a0 : Bool) (s : State) : Host.Outcome State Fault Refusal :=
  .next (wrSecCommand (wrSecByte m S E C a0) s)

end Sys2Proof.Machine
end

