-- ==== Sys2Proof/Machine/TypeThree.lean ====
section
/-! DEFINITION. The Type III commands Read-Address, Read-Track and Write-Track (R150, R154, R155). -/

namespace Sys2Proof.Machine

def rdAddrCommand (b : Byte) (s : State) : State := typeTwoThreeCommand b startRead s

def rdTrkCommand (b : Byte) (s : State) : State := typeTwoThreeCommand b startRead s

def wrTrkCommand (b : Byte) (s : State) : State := typeTwoThreeCommand b startWrite s

/-- R150: the low four bits are ignored (R87). -/
def execRdAddr (x3 E x1 x0 : Bool) (s : State) : Host.Outcome State Fault Refusal :=
  .next (rdAddrCommand (rdAddrByte x3 E x1 x0) s)

/-- R154: the low four bits are ignored (R87). -/
def execRdTrk (x3 E x1 x0 : Bool) (s : State) : Host.Outcome State Fault Refusal :=
  .next (rdTrkCommand (rdTrkByte x3 E x1 x0) s)

/-- R155: the low four bits are ignored (R87). -/
def execWrTrk (x3 E x1 x0 : Bool) (s : State) : Host.Outcome State Fault Refusal :=
  .next (wrTrkCommand (wrTrkByte x3 E x1 x0) s)

end Sys2Proof.Machine
end

