-- ==== Sys2Proof/Machine/BusOperations.lean ====
section
/-! DEFINITION. The ten register accesses (R231 to R240). A read's byte goes to the host: `State.trace`. -/

namespace Sys2Proof.Machine

/-- `WriteCommand(b)` (R113): the byte classified once (R116) and dispatched. Force-Interrupt is accepted in
every phase; every other command tests Busy. -/
def writeCommand (b : Byte) (s : State) : State :=
  match classify b with
  | .forceInterrupt => forceInterruptCommand b s
  | .restore => restoreCommand b s
  | .seek => seekCommand b s
  | .step => stepCommand b s
  | .stepIn => stepInCommand b s
  | .stepOut => stepOutCommand b s
  | .readSector => rdSecCommand b s
  | .writeSector => wrSecCommand b s
  | .readAddress => rdAddrCommand b s
  | .readTrack => rdTrkCommand b s
  | .writeTrack => wrTrkCommand b s
  | .unknown => unknownCommand b s

/-- The active transfer, if it waits for a data-register read: phase Transferring, DRQ set, a read command
(R237). -/
def readWaiting (s : State) : Option Transfer :=
  match activeTransfer s with
  | some k => if s.ctl.phase = .transferring ∧ s.ctl.drq = true ∧ isReadTransfer k = true then some k else none
  | none => none

/-- The active transfer, if it waits for a data-register write (R238). -/
def writeWaiting (s : State) : Option Transfer :=
  match activeTransfer s with
  | some k => if s.ctl.phase = .transferring ∧ s.ctl.drq = true ∧ isReadTransfer k = false then some k else none
  | none => none

/-- The state `ReadData()` leaves (R237); it returns the `DR` it found. -/
def readDataEffect (s : State) : State :=
  match readWaiting s with
  | some k => consumeRead k s
  | none => s

/-- `WriteData(b)` (R238). -/
def writeData (b : Byte) (s : State) : State :=
  let t : State := { s with ctl := { s.ctl with DR := b } }
  match writeWaiting s with
  | some k => consumeWrite k b t
  | none => t

/-! ## Meanings -/

/-- R231: the status byte, then `intrq <- false`. -/
def execRdStatus (_z : Byte) (s : State) : Host.Outcome State Fault Refusal :=
  .next ((acknowledge s).emit (.read (status s)))

/-- R232. -/
def execWrCmd (d : Byte) (s : State) : Host.Outcome State Fault Refusal := .next (writeCommand d s)

/-- R233. -/
def execRdTrack (_z : Byte) (s : State) : Host.Outcome State Fault Refusal :=
  .next (s.emit (.read s.ctl.TR))

/-- R234. -/
def execWrTrack (d : Byte) (s : State) : Host.Outcome State Fault Refusal :=
  .next { s with ctl := { s.ctl with TR := d } }

/-- R235. -/
def execRdSector (_z : Byte) (s : State) : Host.Outcome State Fault Refusal :=
  .next (s.emit (.read s.ctl.SR))

/-- R236. -/
def execWrSector (d : Byte) (s : State) : Host.Outcome State Fault Refusal :=
  .next { s with ctl := { s.ctl with SR := d } }

/-- R237. -/
def execRdData (_z : Byte) (s : State) : Host.Outcome State Fault Refusal :=
  .next ((readDataEffect s).emit (.read s.ctl.DR))

/-- R238. -/
def execWrData (d : Byte) (s : State) : Host.Outcome State Fault Refusal := .next (writeData d s)

/-- R239: no side effect. -/
def execRdSys (_z : Byte) (s : State) : Host.Outcome State Fault Refusal :=
  .next (s.emit (.read (readSys s)))

/-- R240. -/
def execWrSys (d : Byte) (s : State) : Host.Outcome State Fault Refusal := .next (writeSys d s)

end Sys2Proof.Machine
end

