-- ==== Sys2Proof/Machine/Dispatch.lean ====
section
/-! DEFINITION. One arm per instruction. -/

namespace Sys2Proof.Machine

def exec (i : Instr) (s : State) : Host.Outcome State Fault Refusal :=
  match i with
  | .restore h v r => Sys2Proof.Machine.execRestore h v r s
  | .seek h v r => Sys2Proof.Machine.execSeek h v r s
  | .step u h v r => Sys2Proof.Machine.execStep u h v r s
  | .stepIn u h v r => Sys2Proof.Machine.execStepIn u h v r s
  | .stepOut u h v r => Sys2Proof.Machine.execStepOut u h v r s
  | .rdSec m c e f x => Sys2Proof.Machine.execRdSec m c e f x s
  | .wrSec m c e f a => Sys2Proof.Machine.execWrSec m c e f a s
  | .rdAddr p e q x => Sys2Proof.Machine.execRdAddr p e q x s
  | .forceInt c => Sys2Proof.Machine.execForceInt c s
  | .rdTrk p e q x => Sys2Proof.Machine.execRdTrk p e q x s
  | .wrTrk p e q x => Sys2Proof.Machine.execWrTrk p e q x s
  | .rdStatus z => Sys2Proof.Machine.execRdStatus z s
  | .wrCmd d => Sys2Proof.Machine.execWrCmd d s
  | .rdTrack z => Sys2Proof.Machine.execRdTrack z s
  | .wrTrack d => Sys2Proof.Machine.execWrTrack d s
  | .rdSector z => Sys2Proof.Machine.execRdSector z s
  | .wrSector d => Sys2Proof.Machine.execWrSector d s
  | .rdData z => Sys2Proof.Machine.execRdData z s
  | .wrData d => Sys2Proof.Machine.execWrData d s
  | .rdSys z => Sys2Proof.Machine.execRdSys z s
  | .wrSys d => Sys2Proof.Machine.execWrSys d s

end Sys2Proof.Machine
end

