-- ==== Sys2Proof/Machine/Management.lean ====
section
/-! DEFINITION. The management operations on a drive slot: insert, eject, flush (R218 to R220). -/

namespace Sys2Proof.Machine

/-- The bytes of a list as cells, the first at offset `a`; a byte an unlisted offset reads as needs no cell. -/
def cellsFrom (a : Nat) (bytes : List Byte) : List Host.Cell :=
  match bytes with
  | [] => []
  | v :: rest => Memory.push a v (cellsFrom (a + 1) rest)

/-- A list of bytes as the buffer `Insert` takes (R218): every byte buffer has this form. -/
def Buffer.ofBytes (bytes : List Byte) : Buffer := ⟨bytes.length, cellsFrom 0 bytes⟩

/-- Slot number `d` as a slot, for the operation `f`; refused where there is no such slot (R244, D37). -/
def withSlot (d : Nat) (f : Fin 4 → State) : Host.Outcome State Fault Refusal :=
  if h : d < 4 then .next (f ⟨d, h⟩) else .refused (.noSuchSlot d)

/-- `Insert(d, bytes, ro)` (R218): a buffer of another length than `IMAGE_SIZE` is a failure and changes no
slot. -/
def insertDisk (bytes : Buffer) (ro : Bool) (d : Fin 4) (s : State) : State :=
  if bytes.size ≠ IMAGE_SIZE then s.emit (.inserted d false)
  else
    (s.setDrive d { s.drv.get d with
      image := Memory.ofCells bytes.cells
      hasDisk := true
      readOnly := ro
      dirty := false }).emit (.inserted d true)

/-- `Eject(d)` (R219). The image loses its meaning; what is left in the field is never read. -/
def ejectDisk (d : Fin 4) (s : State) : State :=
  s.setDrive d { s.drv.get d with hasDisk := false, readOnly := false, dirty := false }

/-- `Flush(d)` (R220): a dirty disk's bytes go out and `dirty` is cleared, otherwise nothing (log entry 15). -/
def flushDisk (d : Fin 4) (s : State) : State :=
  let drive := s.drv.get d
  if drive.hasDisk = true ∧ drive.dirty = true then
    (s.setDrive d { drive with dirty := false }).emit (.flushed d ⟨IMAGE_SIZE, drive.image⟩)
  else s

/-- R218 for a slot number. -/
def insertOp (d : Nat) (bytes : Buffer) (ro : Bool) (s : State) : Host.Outcome State Fault Refusal :=
  withSlot d (fun i => insertDisk bytes ro i s)

/-- R219 for a slot number. -/
def ejectOp (d : Nat) (s : State) : Host.Outcome State Fault Refusal :=
  withSlot d (fun i => ejectDisk i s)

/-- R220 for a slot number. -/
def flushOp (d : Nat) (s : State) : Host.Outcome State Fault Refusal :=
  withSlot d (fun i => flushDisk i s)

end Sys2Proof.Machine
end

