-- ==== Sys2Proof/Machine/HostStream.lean ====
section
/-! DEFINITION. The host's stream of operations (R68): the next one is taken, decoded if it is a raw word,
and performed whole before the one after it (R11). -/

namespace Sys2Proof.Machine

/-- A raw word that is no instruction. Outside the host contract it is refused (R244, D37); an Unknown
command byte would have R166's effect. -/
def rejectWord (e : DecodeError) (s : State) : Host.Outcome State Fault Refusal :=
  match e with
  | .notABusWord => .refused .notABusWord
  | .noSuchRegister sel => .refused (.noSuchRegister sel)
  | .unrecognisedCommand b => .next (unknownCommand b s)

/-- A raw word performed: decoded, then executed. -/
def performWord (w : HostWord) (s : State) : Host.Outcome State Fault Refusal :=
  match decode w with
  | .ok i => exec i s
  | .error e => rejectWord e s

/-- One operation of the host. -/
def perform (op : HostOp) (s : State) : Host.Outcome State Fault Refusal :=
  match op with
  | .word w => performWord w s
  | .tick abs delta => tick abs delta s
  | .insert d bytes ro => insertOp d bytes ro s
  | .eject d => ejectOp d s
  | .flush d => flushOp d s
  | .reset => .next (systemReset s)

/-- The next operation of the stream. With none left nothing happens: "the controller has no step of its
own" (R11; DESIGN CHOICE, log entry 5). -/
def performNext (s : State) : Host.Outcome State Fault Refusal :=
  match s.input with
  | [] => .next s
  | op :: rest => perform op { s with input := rest }

/-- `op` issued before what the stream holds. -/
def State.issue (s : State) (op : HostOp) : State := { s with input := op :: s.input }

end Sys2Proof.Machine
end

