-- ==== Sys2Proof/Machine/Step.lean ====
section
/-! DEFINITION. One step: the next operation of the host's stream. -/

namespace Sys2Proof.Machine

/-- R68: the state after a sequence of operations is the fold of the per-operation rules over it; a step is
one of them. -/
def step (s : State) : Host.Outcome State Fault Refusal := performNext s

/-- The instruction whose bits are `w` put at the head of the host's stream, where `step` takes its next
operation. -/
def State.withFetchWord (s : State) (nbits w : Nat) : State := s.issue (.word (tableWord nbits w))

end Sys2Proof.Machine
end

