-- ==== Sys2Proof/Safety.lean ====
section
/-! DEFINITION. What a safe run is: the invariants of R44, with those that follow from the other rules and
are needed to keep them; the host contract of R244. -/

namespace Sys2Proof.Machine

/-- A status bit is latched. -/
abbrev anyLatched (c : Controller) : Bool :=
  c.stLost || c.stCrc || c.stErr4 || c.stRecType || c.stWp

/-- The invariants of the controller (R44 and what they need). -/
structure CtlInv (c : Controller) : Prop where
  /-- R44 item 5. -/
  idleIffNoDeadline : c.phase = .idle ↔ c.deadline = none
  /-- R44 items 6 and 8: DRQ is raised in Transferring only. -/
  drqTransferring : c.drq = true → c.phase = .transferring
  /-- R34: what waits in Searching is a Type I settle or the search of a transfer. -/
  searchingCommand : c.phase = .searching →
    isTypeOne (classify c.CR) = true ∨ (transferOf (classify c.CR)).isSome = true
  /-- R44 item 7. -/
  transferRunning : c.phase = .transferring →
    ∃ k, transferOf (classify c.CR) = some k ∧ c.byteIndex < xferLen k
  /-- A command in flight has set the status family (R114). -/
  familyOfCommand : c.phase ≠ .idle → familyOf (classify c.CR) = some c.family
  /-- R44 item 10. -/
  typeIClean : c.family = .typeI → anyLatched c = false ∧ c.drq = false
  /-- INTRQ is clear while a command is in flight (R114, R258), so that it is never set with DRQ. -/
  busyNoIntrq : c.phase ≠ .idle → c.intrq = false

/-- The invariants of a drive slot. -/
structure SlotInv (x : Drive) : Prop where
  /-- R44 item 2: the head is on a track of the drive. -/
  headOnTrack : x.physicalTrack < TRACKS
  /-- The image is in canonical form. -/
  imageCanonical : Memory.wf x.image = true
  /-- An empty slot is neither read-only nor dirty (R43, R219). -/
  emptySlot : x.hasDisk = false → x.readOnly = false ∧ x.dirty = false

/-- R44 item 9, which holds after every operation, not only after a tick. -/
abbrev deadlineAhead (c : Controller) : Prop := ∀ d, c.deadline = some d → c.now < d

/-- The invariants of the machine. -/
structure Inv (s : State) : Prop where
  /-- The delays meet R6's constraints. -/
  delays : s.cfg.valid
  ctl : CtlInv s.ctl
  ahead : deadlineAhead s.ctl
  slots : ∀ d : Fin 4, SlotInv (s.drv.get d)

/-- An operation inside the host contract (R244): a bus word names one of the five registers, a tick does not
go back, a management operation names a slot. -/
def HostOp.inContract (op : HostOp) (s : State) : Prop :=
  match op with
  | .word (.command _) => True
  | .word (.bus w) => w.extractLsb' 12 4 = 0#4 ∧ busSel w ≤ 4
  | .tick abs _ => s.ctl.now ≤ abs
  | .insert d _ _ => d < 4
  | .eject d => d < 4
  | .flush d => d < 4
  | .reset => True

/-- A step that goes on. -/
def stepsOn (s : State) : Prop := ∃ t, step s = .next t

end Sys2Proof.Machine
end

