-- ==== Sys2Proof/Certificates/Slice0/Obligations.lean ====
section
/-! DEFINITION. The statements for the provers. The words they share stand first: what a frame keeps, what a
command leaves when it is accepted, what a byte asked for at a deadline leaves. Every full equation
`t.ctl = { s.ctl with … }` is result and frame at once: each register, flag, latch and sequencing field that
is not named keeps its value. -/

open Sys2Proof Sys2Proof.Machine

namespace Sys2Proof.Machine

/-- Every byte of every image reads as before. -/
def bytesKept (s t : State) : Prop := ∀ (d : Fin 4) (a : Nat), t.imageByte d a = s.imageByte d a

/-- The delays, the host's stream and what has been returned are as before. -/
def restKept (s t : State) : Prop := t.cfg = s.cfg ∧ t.input = s.input ∧ t.trace = s.trace

/-- The head `n` tracks on, held between track 0 and track 79 (R216). -/
def headAfter (p : Nat) (n : Int) : Nat := (max 0 (min ((p : Int) + n) 79)).toNat

/-- R126: the track register after one step, unchanged when the update bit is clear. -/
def registerAfterStep (u : Bool) (dir : StepDir) (tr : Byte) : Byte :=
  if u then
    match dir with
    | .In => BitVec.ofNat 8 (tr.toNat + 1)
    | .Out => BitVec.ofNat 8 (tr.toNat - 1)
  else tr

/-- R126: the head after one step. -/
def headAfterStep (dir : StepDir) (p : Nat) : Nat :=
  match dir with
  | .In => headAfter p 1
  | .Out => headAfter p (-1)

/-- `t` is `s` with the Type I command byte `b` accepted: the movement done, the settle begun (R114, R120). -/
def settleBegun (s t : State) (b : Byte) (r : BitVec 2) (tr : Byte) (dir : StepDir) (head : Nat) : Prop :=
  t.ctl = { s.ctl with
    CR := b, TR := tr, stepDir := dir, stepRate := r, intrq := false
    phase := .searching, family := .typeI, deadline := some (s.ctl.now + s.cfg.tType1)
    stLost := false, stCrc := false, stErr4 := false, stRecType := false, stWp := false } ∧
  t.selected = { s.selected with physicalTrack := head } ∧
  (∀ d, d ≠ s.ctl.drive → t.drv.get d = s.drv.get d) ∧ bytesKept s t ∧ restKept s t

/-- `t` is `s` with the Type II or III command byte `b` accepted and its search begun (R114, R135). -/
def searchBegun (s t : State) (b : Byte) : Prop :=
  t.ctl = { s.ctl with
    CR := b, intrq := false
    phase := .searching, family := .typeII_III, deadline := some (s.ctl.now + s.cfg.tSearch)
    stLost := false, stCrc := false, stErr4 := false, stRecType := false, stWp := false } ∧
  t.drv = s.drv ∧ bytesKept s t ∧ restKept s t

/-- `t` is `s` with the Type II or III command byte `b` accepted and ended at once, `wp` its Write-protect
latch (R136, R139). -/
def endedAtOnce (s t : State) (b : Byte) (wp : Bool) : Prop :=
  t.ctl = { s.ctl with
    CR := b, intrq := true, family := .typeII_III
    stLost := false, stCrc := false, stErr4 := false, stRecType := false, stWp := wp } ∧
  t.drv = s.drv ∧ bytesKept s t ∧ restKept s t

/-- `t` is `u` with byte `u.ctl.byteIndex` of transfer `k` asked for at time `d` (R174, R175, R254). -/
def byteRaised (k : Transfer) (d : Nat) (u t : State) : Prop :=
  (k = .readAddress → ∀ r, idByte u.ctl.idBuf u.ctl.byteIndex = some r →
    t = { u with ctl := { u.ctl with DR := r, drq := true, deadline := some (d + u.cfg.tByte) } }) ∧
  (k = .readSector ∨ k = .readTrack → u.selected.hasDisk = true →
    ∀ a, xferAddr k u.ctl.byteIndex u = some a →
    t = { u with ctl := { u.ctl with
      DR := u.imageByte u.ctl.drive a, drq := true, deadline := some (d + u.cfg.tByte) } }) ∧
  (k = .writeSector ∨ k = .writeTrack → u.selected.hasDisk = true →
    (xferAddr k u.ctl.byteIndex u).isSome = true →
    t = { u with ctl := { u.ctl with drq := true, deadline := some (d + u.cfg.tByte) } }) ∧
  (k ≠ .readAddress → (u.selected.hasDisk = false ∨ xferAddr k u.ctl.byteIndex u = none) →
    t = { u with ctl := { u.ctl with
      stErr4 := true, phase := .idle, deadline := none, drq := false, intrq := true } })

/-- The operation writes command byte `b` to the command register. -/
def writesCommand (op : HostOp) (b : Byte) : Prop :=
  op = .word (.command b) ∨ ∃ w, op = .word w ∧ decode w = .ok (.wrCmd b)

/-- The operation is a reset-line pulse in state `s` (R201). -/
def pulses (op : HostOp) (s : State) : Prop :=
  ∃ w v, op = .word w ∧ decode w = .ok (.wrSys v) ∧ s.ctl.resetLine = false ∧ v.getLsbD 2 = true

end Sys2Proof.Machine

/-! ## Encoding -/

/-- R81, R82 to R86 (codes: the spec's decisions D1, D2, D4): words written out bit by bit decode to the
instructions they stand for. -/
def Obligations.WrittenWordsDecode : Prop :=
  decodeTableWord 8 0b00000011 = some (.restore false false 0b11#2) ∧
  decodeTableWord 8 0b00011011 = some (.seek true false 0b11#2) ∧
  decodeTableWord 8 0b01010100 = some (.stepIn true false true 0b00#2) ∧
  decodeTableWord 8 0b10001000 = some (.rdSec false true false false false) ∧
  decodeTableWord 8 0b10110001 = some (.wrSec true false false false true) ∧
  decodeTableWord 8 0b11000100 = some (.rdAddr false true false false) ∧
  decodeTableWord 8 0b11011000 = some (.forceInt 0b1000#4) ∧
  decodeTableWord 16 0b100010000000 = some (.wrCmd 0x80#8) ∧
  decodeTableWord 16 0b001100000000 = some (.rdData 0x00#8) ∧
  decodeTableWord 16 0b110000011100 = some (.wrSys 0x1C#8) ∧
  decodeTableWord 16 0b010100000000 = none

/-- R80 to R86: every instruction's word decodes to it, each operand at every value the encoding admits. That a
read's data byte comes back whatever it is, is the model's reading (DEDUCED, log entry 9; R98 masks it out). -/
def Obligations.DecodeOfEncodeIsTheInstruction : Prop :=
  ∀ i : Instr, decode (encode i) = .ok i

/-- R80 to R86: a word that decodes is the word of the instruction it decodes to, so no two words mean the
same instruction and no bit of a word is dropped. Two points of it are the model's and no rule of the spec: the
12-bit word of R81 stands in 16 bits whose upper four must be 0 (DESIGN CHOICE, log entry 4), and a read keeps
its data byte as a field, which R98 masks out of the match (DEDUCED, log entry 9). -/
def Obligations.EncodeOfDecodeIsTheWord : Prop :=
  ∀ (w : HostWord) (i : Instr), decode w = .ok i → encode i = w

/-- R88, R89 (codes: D1): no byte is Unknown, and the low four bits never change the variant. -/
def Obligations.HighNibbleAloneSelectsTheVariant : Prop :=
  ∀ b c : Byte, b.extractLsb' 4 4 = c.extractLsb' 4 4 →
    classify b = classify c ∧ classify b ≠ .unknown

/-! ## The step and the host contract -/

/-- R11, R68: with the word of a well-formed instruction at the head of the stream, a step is that
instruction's execution on the state with the word taken off. -/
def Obligations.StepRunsTheDecodedInstruction : Prop :=
  ∀ (s : State) (w : HostWord) (i : Instr) (rest : List HostOp),
    s.input = .word w :: rest → decode w = .ok i → WellFormed i = true →
    step s = exec i { s with input := rest }

/-- R81, R170, R218 to R220, R244 (D37): outside the host contract an operation is refused, under the name of
what is wrong with it. The container of 16 bits is the model's (DESIGN CHOICE, log entry 4), and so are the
refusals' names (DEDUCED, log entry 12). -/
def Obligations.OperationsOutsideTheContractAreRefused : Prop :=
  (∀ (s : State) (w : BitVec 16), w.extractLsb' 12 4 = 0#4 → 4 < busSel w →
    perform (.word (.bus w)) s = .refused (.noSuchRegister (busSel w))) ∧
  (∀ (s : State) (abs delta : Nat), abs < s.ctl.now →
    perform (.tick abs delta) s = .refused .clockBackwards) ∧
  (∀ (s : State) (d : Nat) (b : Buffer) (ro : Bool), 4 ≤ d →
    perform (.insert d b ro) s = .refused (.noSuchSlot d)) ∧
  (∀ (s : State) (d : Nat), 4 ≤ d → perform (.eject d) s = .refused (.noSuchSlot d)) ∧
  (∀ (s : State) (d : Nat), 4 ≤ d → perform (.flush d) s = .refused (.noSuchSlot d))

/-- R244: "Inside the contract no operation faults, traps or blocks." From every state that meets the
invariants, with the next operation inside the contract, the step goes on. -/
def Obligations.NoFaultInsideTheContract : Prop :=
  ∀ s : State, Inv s → (∀ op rest, s.input = op :: rest → op.inContract s) → stepsOn s

/-- R44: every step keeps the invariants, in every state that meets them. -/
def Obligations.StepKeepsTheInvariants : Prop :=
  ∀ s t : State, Inv s → step s = .next t → Inv t

/-- R44: the power-on state meets the invariants at every admissible value of the three delays, and so does
`State.reset`, whose delays are the model's choice (log entry 1). -/
def Obligations.PowerOnMeetsTheInvariants : Prop :=
  (∀ cfg : Config, cfg.valid → Inv (State.powerOn cfg)) ∧ Inv State.reset

/-- R47, R280 (D9, D25, D38): the power-on values, at every value of the delays. The source gives `TR`, Idle,
INTRQ and DRQ; the others are decisions the spec marks as its own. -/
def Obligations.PowerOnValues : Prop :=
  ∀ cfg : Config,
    (State.powerOn cfg).ctl =
      { CR := 0x00#8, TR := 0x00#8, SR := 0x01#8, DR := 0x00#8, drive := 0, side := 0
        motorOn := false, resetLine := false, stepDir := .Out, stepRate := 0#2
        intrq := false, drq := false, phase := .idle, family := .typeI, deadline := none
        now := 0, byteIndex := 0, idBuf := ⟨0#8, 0#8, 0#8, 0#8, 0#8, 0#8⟩
        stLost := false, stCrc := false, stErr4 := false, stRecType := false, stWp := false } ∧
    ∀ d : Fin 4, ((State.powerOn cfg).drv.get d).hasDisk = false ∧
      ((State.powerOn cfg).drv.get d).readOnly = false ∧ ((State.powerOn cfg).drv.get d).dirty = false ∧
      ((State.powerOn cfg).drv.get d).physicalTrack = 0

/-- R46: no step changes the three delays. -/
def Obligations.StepKeepsTheDelays : Prop :=
  ∀ s t : State, step s = .next t → t.cfg = s.cfg

/-! ## Type I commands -/

/-- R121 (head and direction: D32). -/
def Obligations.RestoreHomesRegisterAndHead : Prop :=
  ∀ (h V : Bool) (r : BitVec 2) (s : State), s.ctl.phase = .idle →
    ∃ t, exec (.restore h V r) s = .next t ∧
      settleBegun s t (restoreByte h V r) r 0x00#8 .Out 0

/-- R122 (D32). -/
def Obligations.SeekMovesByTheRegisterDifference : Prop :=
  ∀ (h V : Bool) (r : BitVec 2) (s : State), s.ctl.phase = .idle →
    ∃ t, exec (.seek h V r) s = .next t ∧
      settleBegun s t (seekByte h V r) r s.ctl.DR
        (if s.ctl.TR.toNat < s.ctl.DR.toNat then .In
          else if s.ctl.DR.toNat < s.ctl.TR.toNat then .Out else s.ctl.stepDir)
        (headAfter s.selected.physicalTrack ((s.ctl.DR.toNat : Int) - (s.ctl.TR.toNat : Int)))

/-- R123, R126 (D32): the stored direction. -/
def Obligations.StepMovesInTheStoredDirection : Prop :=
  ∀ (u h V : Bool) (r : BitVec 2) (s : State), s.ctl.phase = .idle →
    ∃ t, exec (.step u h V r) s = .next t ∧
      settleBegun s t (stepByte u h V r) r (registerAfterStep u s.ctl.stepDir s.ctl.TR) s.ctl.stepDir
        (headAfterStep s.ctl.stepDir s.selected.physicalTrack)

/-- R124, R126 (D32). -/
def Obligations.StepInMovesInward : Prop :=
  ∀ (u h V : Bool) (r : BitVec 2) (s : State), s.ctl.phase = .idle →
    ∃ t, exec (.stepIn u h V r) s = .next t ∧
      settleBegun s t (stepInByte u h V r) r (registerAfterStep u .In s.ctl.TR) .In
        (headAfterStep .In s.selected.physicalTrack)

/-- R125, R126 (D32). -/
def Obligations.StepOutMovesOutward : Prop :=
  ∀ (u h V : Bool) (r : BitVec 2) (s : State), s.ctl.phase = .idle →
    ∃ t, exec (.stepOut u h V r) s = .next t ∧
      settleBegun s t (stepOutByte u h V r) r (registerAfterStep u .Out s.ctl.TR) .Out
        (headAfterStep .Out s.selected.physicalTrack)

/-- R127, R170: a settle ends in the first tick that reaches its deadline, and changes nothing but `phase`,
`deadline` and `intrq`. -/
def Obligations.SettleEndsAtItsDeadline : Prop :=
  ∀ (s : State) (abs delta d : Nat), s.ctl.phase = .searching → isTypeOne (activeVariant s) = true →
    s.ctl.deadline = some d → s.ctl.now ≤ abs → d ≤ abs →
    perform (.tick abs delta) s =
      .next { s with ctl := { s.ctl with now := abs, phase := .idle, deadline := none, intrq := true } }

/-! ## Type II, III and IV commands -/

/-- R135, R137, R150, R154 (D11; ignored bits D21): a read command on a ready drive starts its search. -/
def Obligations.ReadCommandsStartTheSearch : Prop :=
  ∀ s : State, s.ctl.phase = .idle → s.ctl.motorOn = true → s.selected.hasDisk = true →
    (∀ m S E C x, ∃ t, exec (.rdSec m S E C x) s = .next t ∧ searchBegun s t (rdSecByte m S E C x)) ∧
    (∀ x3 E x1 x0, ∃ t, exec (.rdAddr x3 E x1 x0) s = .next t ∧ searchBegun s t (rdAddrByte x3 E x1 x0)) ∧
    (∀ x3 E x1 x0, ∃ t, exec (.rdTrk x3 E x1 x0) s = .next t ∧ searchBegun s t (rdTrkByte x3 E x1 x0))

/-- R135, R138, R155 (D11, D14): a write command on a ready drive with writable media starts its search. -/
def Obligations.WriteCommandsStartTheSearch : Prop :=
  ∀ s : State, s.ctl.phase = .idle → s.ctl.motorOn = true → s.selected.hasDisk = true →
    s.selected.readOnly = false →
    (∀ m S E C a0, ∃ t, exec (.wrSec m S E C a0) s = .next t ∧ searchBegun s t (wrSecByte m S E C a0)) ∧
    (∀ x3 E x1 x0, ∃ t, exec (.wrTrk x3 E x1 x0) s = .next t ∧ searchBegun s t (wrTrkByte x3 E x1 x0))

/-- R136, R251 (INTRQ: D12): without readiness each of the five is accepted and ends at once, Busy never set,
on read-only media too (R261 item 1). -/
def Obligations.NotReadyEndsTheCommandAtOnce : Prop :=
  ∀ s : State, s.ctl.phase = .idle → (s.ctl.motorOn = false ∨ s.selected.hasDisk = false) →
    (∀ m S E C x, ∃ t, exec (.rdSec m S E C x) s = .next t ∧ endedAtOnce s t (rdSecByte m S E C x) false) ∧
    (∀ m S E C a0, ∃ t, exec (.wrSec m S E C a0) s = .next t ∧
      endedAtOnce s t (wrSecByte m S E C a0) false) ∧
    (∀ x3 E x1 x0, ∃ t, exec (.rdAddr x3 E x1 x0) s = .next t ∧
      endedAtOnce s t (rdAddrByte x3 E x1 x0) false) ∧
    (∀ x3 E x1 x0, ∃ t, exec (.rdTrk x3 E x1 x0) s = .next t ∧
      endedAtOnce s t (rdTrkByte x3 E x1 x0) false) ∧
    (∀ x3 E x1 x0, ∃ t, exec (.wrTrk x3 E x1 x0) s = .next t ∧
      endedAtOnce s t (wrTrkByte x3 E x1 x0) false)

/-- R139, R252 (D14): a write command to ready read-only media ends at once with Write-protect, no byte of
any image changed. -/
def Obligations.ReadOnlyMediaEndsAWriteCommandAtOnce : Prop :=
  ∀ s : State, s.ctl.phase = .idle → s.ctl.motorOn = true → s.selected.hasDisk = true →
    s.selected.readOnly = true →
    (∀ m S E C a0, ∃ t, exec (.wrSec m S E C a0) s = .next t ∧ endedAtOnce s t (wrSecByte m S E C a0) true) ∧
    (∀ x3 E x1 x0, ∃ t, exec (.wrTrk x3 E x1 x0) s = .next t ∧ endedAtOnce s t (wrTrkByte x3 E x1 x0) true)

/-- R165 (latched bits: D36): in every state, whatever the low four bits. -/
def Obligations.ForceInterruptSucceedsInEveryState : Prop :=
  ∀ (I : BitVec 4) (s : State), ∃ t, exec (.forceInt I) s = .next t ∧
    t.ctl = { s.ctl with
      CR := forceIntByte I, phase := .idle, drq := false, deadline := none, family := .typeI, intrq := true
      stLost := false, stCrc := false, stErr4 := false, stRecType := false, stWp := false } ∧
    t.drv = s.drv ∧ bytesKept s t ∧ restKept s t

/-- R167: Force-Interrupt is the only command that changes state while Busy, and after it the active variant
is Force-Interrupt with the phase Idle. -/
def Obligations.OnlyForceInterruptActsWhileBusy : Prop :=
  (∀ (s : State) (b : Byte), s.ctl.phase ≠ .idle → classify b ≠ .forceInterrupt →
    exec (.wrCmd b) s = .next s ∧ perform (.word (.command b)) s = .next s) ∧
  (∀ (s : State) (b : Byte), classify b = .forceInterrupt →
    ∃ t, exec (.wrCmd b) s = .next t ∧ perform (.word (.command b)) s = .next t ∧
      activeVariant t = .forceInterrupt ∧ t.ctl.phase = .idle)

/-- R232: a command write is ignored while Busy unless the byte is a Force-Interrupt, and otherwise is
classified and started: it is the execution of the command its byte decodes to. -/
def Obligations.CommandWriteRunsItsByte : Prop :=
  ∀ (s : State) (b : Byte),
    (s.ctl.phase ≠ .idle ∧ classify b ≠ .forceInterrupt → exec (.wrCmd b) s = .next s) ∧
    (s.ctl.phase = .idle ∨ classify b = .forceInterrupt →
      ∃ i t, decode (.command b) = .ok i ∧ exec i s = .next t ∧ exec (.wrCmd b) s = .next t)

/-! ## Register accesses -/

/-- R231, R194: the byte is built, then `intrq` cleared, and nothing else changes. -/
def Obligations.StatusReadClearsOnlyIntrq : Prop :=
  ∀ (z : Byte) (s : State),
    exec (.rdStatus z) s =
      .next { s with ctl := { s.ctl with intrq := false }, trace := .read (status s) :: s.trace }

/-- R191, R192 (Type I bits 1, 2, 5, 6: D22; Type II/III bits 3, 5, 6: D23): the two layouts, bit by bit. -/
def Obligations.StatusByteBitByBit : Prop :=
  (∀ s : State, s.ctl.family = .typeI →
    (status s).getLsbD 0 = decide (s.ctl.phase ≠ .idle) ∧
    (status s).getLsbD 1 = false ∧
    (status s).getLsbD 2 = decide (s.selected.physicalTrack = 0) ∧
    (status s).getLsbD 3 = s.ctl.stCrc ∧
    (status s).getLsbD 4 = s.ctl.stErr4 ∧
    (status s).getLsbD 5 = s.ctl.motorOn ∧
    (status s).getLsbD 6 = (s.selected.hasDisk && s.selected.readOnly) ∧
    (status s).getLsbD 7 = !(s.ctl.motorOn && s.selected.hasDisk)) ∧
  (∀ s : State, s.ctl.family = .typeII_III →
    (status s).getLsbD 0 = decide (s.ctl.phase ≠ .idle) ∧
    (status s).getLsbD 1 = s.ctl.drq ∧
    (status s).getLsbD 2 = s.ctl.stLost ∧
    (status s).getLsbD 3 = s.ctl.stCrc ∧
    (status s).getLsbD 4 = s.ctl.stErr4 ∧
    (status s).getLsbD 5 = s.ctl.stRecType ∧
    (status s).getLsbD 6 = s.ctl.stWp ∧
    (status s).getLsbD 7 = !(s.ctl.motorOn && s.selected.hasDisk))

/-- R193: status bit 7 is `not Ready()` in both layouts, with `Ready()` evaluated at the read. -/
def Obligations.NotReadyBitIsLiveInBothLayouts : Prop :=
  ∀ s : State, (ready s = true ↔ s.ctl.motorOn = true ∧ (s.drv.get s.ctl.drive).hasDisk = true) ∧
    (status s).getLsbD 7 = !ready s

/-- R198 (from the invariants R44): what the status byte and the system control read can be. INTRQ and DRQ
are never both set. -/
def Obligations.StatusBitsThatExcludeEachOther : Prop :=
  ∀ s : State, Inv s →
    (s.ctl.family = .typeI → (status s).getLsbD 1 = false ∧ (status s).getLsbD 3 = false ∧
      (status s).getLsbD 4 = false) ∧
    (s.ctl.family = .typeI → s.ctl.motorOn = false →
      (status s).getLsbD 5 = false ∧ (status s).getLsbD 7 = true) ∧
    (s.ctl.family = .typeII_III → (status s).getLsbD 1 = true → (status s).getLsbD 0 = true) ∧
    ¬((readSys s).getLsbD 7 = true ∧ (readSys s).getLsbD 6 = true)

/-- R233, R235: the register is returned, with no side effect; and after a Read-Address, whose last byte the host
consumes or a tick finds unserviced (R153), the sector register read returns the track value. -/
def Obligations.TrackAndSectorReadsHaveNoSideEffect : Prop :=
  (∀ (z : Byte) (s : State),
    exec (.rdTrack z) s = .next { s with trace := .read s.ctl.TR :: s.trace } ∧
    exec (.rdSector z) s = .next { s with trace := .read s.ctl.SR :: s.trace }) ∧
  (∀ (z : Byte) (s u : State), activeVariant s = .readAddress → s.ctl.phase = .transferring →
    s.ctl.drq = true → s.ctl.byteIndex = 5 →
    ((∃ y, exec (.rdData y) s = .next u) ∨
      ∃ d abs delta, s.ctl.deadline = some d ∧ d ≤ abs ∧ perform (.tick abs delta) s = .next u) →
    exec (.rdSector z) u = .next { u with trace := .read s.ctl.idBuf.track :: u.trace })

/-- R239: INTRQ in bit 7, DRQ in bit 6, no side effect. -/
def Obligations.SystemControlReadMirrorsTheFlags : Prop :=
  ∀ (z : Byte) (s : State), ∃ v : Byte,
    exec (.rdSys z) s = .next { s with trace := .read v :: s.trace } ∧
    v.getLsbD 7 = s.ctl.intrq ∧ v.getLsbD 6 = s.ctl.drq

/-- R234: in every phase `TR` alone changes, no head moves, and the next byte's address takes the new value. -/
def Obligations.TrackWriteLoadsOnlyTheTrackRegister : Prop :=
  ∀ (b : Byte) (s : State), ∃ t, exec (.wrTrack b) s = .next t ∧
    t = { s with ctl := { s.ctl with TR := b } } ∧
    (∀ d, (t.drv.get d).physicalTrack = (s.drv.get d).physicalTrack) ∧ bytesKept s t ∧
    (∀ k i, xferAddr k i t =
      match k with
      | .readSector | .writeSector => lin b.toNat s.ctl.side.val s.ctl.SR.toNat i
      | .readTrack | .writeTrack => trackLin b.toNat s.ctl.side.val i
      | .readAddress => none)

/-- R236: in every phase `SR` alone changes; every value is stored, 0 and the values above 16 too, which address
no sector. -/
def Obligations.SectorWriteLoadsOnlyTheSectorRegister : Prop :=
  ∀ (b : Byte) (s : State), ∃ t, exec (.wrSector b) s = .next t ∧
    t = { s with ctl := { s.ctl with SR := b } } ∧ bytesKept s t ∧
    (b.toNat = 0 ∨ 16 < b.toNat → ∀ tr sd o : Nat, lin tr sd b.toNat o = none)

/-- R237, R176 (D29, D30): a data-register read that takes a waiting byte. -/
def Obligations.DataReadConsumesTheWaitingByte : Prop :=
  ∀ (z : Byte) (s : State) (k : Transfer), activeTransfer s = some k → isReadTransfer k = true →
    s.ctl.phase = .transferring → s.ctl.drq = true →
    ∃ t, exec (.rdData z) s = .next t ∧
      t.trace = .read s.ctl.DR :: s.trace ∧ t.drv = s.drv ∧ bytesKept s t ∧ t.cfg = s.cfg ∧
      t.input = s.input ∧
      (s.ctl.byteIndex + 1 ≠ xferLen k → t.ctl = { s.ctl with
        drq := false, byteIndex := s.ctl.byteIndex + 1, deadline := some (s.ctl.now + s.cfg.tByte) }) ∧
      (s.ctl.byteIndex + 1 = xferLen k → t.ctl = { s.ctl with
        drq := false, byteIndex := s.ctl.byteIndex + 1, phase := .idle, deadline := none, intrq := true
        SR := if k = .readAddress then s.ctl.idBuf.track else s.ctl.SR })

/-- R238, R177, R215 (D29): a data-register write that supplies the byte a write command waits for. The byte
goes to the address `xferAddr` gives, and to no other. -/
def Obligations.DataWriteStoresTheRequestedByte : Prop :=
  ∀ (b : Byte) (s : State) (k : Transfer) (a : Nat), Inv s → activeTransfer s = some k →
    isReadTransfer k = false → s.ctl.phase = .transferring → s.ctl.drq = true →
    s.selected.hasDisk = true → s.selected.readOnly = false → xferAddr k s.ctl.byteIndex s = some a →
    ∃ t, exec (.wrData b) s = .next t ∧
      t.imageByte s.ctl.drive a = b ∧
      (∀ d e, ¬(d = s.ctl.drive ∧ e = a) → t.imageByte d e = s.imageByte d e) ∧
      t.selected = { s.selected with image := t.selected.image, dirty := true } ∧
      (∀ d, d ≠ s.ctl.drive → t.drv.get d = s.drv.get d) ∧ restKept s t ∧
      (s.ctl.byteIndex + 1 ≠ xferLen k → t.ctl = { s.ctl with
        DR := b, drq := false, byteIndex := s.ctl.byteIndex + 1
        deadline := some (s.ctl.now + s.cfg.tByte) }) ∧
      (s.ctl.byteIndex + 1 = xferLen k → t.ctl = { s.ctl with
        DR := b, drq := false, byteIndex := s.ctl.byteIndex + 1
        phase := .idle, deadline := none, intrq := true })

/-- R237, R238 (D29): an access of the data register that services no request is a plain register access,
in the wrong direction during a transfer too. -/
def Obligations.DataAccessWithoutRequestIsPlain : Prop :=
  (∀ (z : Byte) (s : State),
    (s.ctl.phase ≠ .transferring ∨ s.ctl.drq = false ∨
      ∀ k, activeTransfer s = some k → isReadTransfer k = false) →
    exec (.rdData z) s = .next { s with trace := .read s.ctl.DR :: s.trace }) ∧
  (∀ (b : Byte) (s : State),
    (s.ctl.phase ≠ .transferring ∨ s.ctl.drq = false ∨
      ∀ k, activeTransfer s = some k → isReadTransfer k = true) →
    exec (.wrData b) s = .next { s with ctl := { s.ctl with DR := b } })

/-- R177, R215, R252, R254 (D14, D16): a write that fails ends the command with its condition; no slot changes.
The range failure is found before the read-only one (R261 item 2). -/
def Obligations.FailedDataWriteEndsTheCommand : Prop :=
  ∀ (b : Byte) (s : State) (k : Transfer), activeTransfer s = some k →
    isReadTransfer k = false → s.ctl.phase = .transferring → s.ctl.drq = true →
    (s.selected.hasDisk = false ∨ xferAddr k s.ctl.byteIndex s = none →
      exec (.wrData b) s = .next { s with ctl := { s.ctl with
        DR := b, stErr4 := true, phase := .idle, deadline := none, drq := false, intrq := true } }) ∧
    (s.selected.hasDisk = true → (xferAddr k s.ctl.byteIndex s).isSome = true →
      s.selected.readOnly = true →
      exec (.wrData b) s = .next { s with ctl := { s.ctl with
        DR := b, stWp := true, phase := .idle, deadline := none, drq := false, intrq := true } })

/-- R200, R90 (positions: D5): a system control write without a 0 to 1 change of the reset bit sets the four
selections and nothing else. -/
def Obligations.SystemControlWriteWithoutPulseOnlySelects : Prop :=
  ∀ (v : Byte) (s : State), ¬(s.ctl.resetLine = false ∧ v.getLsbD 2 = true) →
    ∃ t, exec (.wrSys v) s = .next t ∧
      t.ctl.drive.val = v.toNat % 4 ∧ t.ctl.side.val = (if v.getLsbD 4 then 0 else 1) ∧
      t.ctl.motorOn = v.getLsbD 3 ∧ t.ctl.resetLine = v.getLsbD 2 ∧
      t = { s with ctl := { s.ctl with
        drive := t.ctl.drive, side := t.ctl.side, motorOn := t.ctl.motorOn, resetLine := t.ctl.resetLine } }

/-! ## Reset -/

/-- R281: the state after the reset-line pulse and before its deadline, row by row. -/
def Obligations.ResetPulseState : Prop :=
  ∀ (v : Byte) (s : State), s.ctl.resetLine = false → v.getLsbD 2 = true →
    ∃ t, exec (.wrSys v) s = .next t ∧
      t.ctl.CR = 0x03#8 ∧ t.ctl.TR = 0x00#8 ∧ t.ctl.SR = 0x01#8 ∧ t.ctl.DR = 0x00#8 ∧
      t.ctl.drive.val = v.toNat % 4 ∧ t.ctl.side.val = (if v.getLsbD 4 then 0 else 1) ∧
      t.ctl.motorOn = v.getLsbD 3 ∧ t.ctl.resetLine = true ∧
      t.ctl.stepDir = .Out ∧ t.ctl.stepRate = 3#2 ∧
      t.ctl.intrq = false ∧ t.ctl.drq = false ∧
      t.ctl.phase = .searching ∧ t.ctl.family = .typeI ∧
      t.ctl.deadline = some (s.ctl.now + s.cfg.tType1) ∧
      anyLatched t.ctl = false ∧
      (t.drv.get t.ctl.drive) = { s.drv.get t.ctl.drive with physicalTrack := 0 } ∧
      (∀ d, d ≠ t.ctl.drive → t.drv.get d = s.drv.get d) ∧ bytesKept s t ∧
      t.ctl.now = s.ctl.now ∧ restKept s t

/-- R242, R282 (D26): the system reset. -/
def Obligations.SystemResetState : Prop :=
  ∀ s : State, perform .reset s =
    .next { s with ctl := {
      CR := 0x00#8, TR := 0x00#8, SR := 0x01#8, DR := 0x00#8, drive := 0, side := 0
      motorOn := false, resetLine := false, stepDir := .Out, stepRate := 0#2
      intrq := false, drq := false, phase := .idle, family := .typeI, deadline := none
      now := s.ctl.now, byteIndex := 0, idBuf := ⟨0#8, 0#8, 0#8, 0#8, 0#8, 0#8⟩
      stLost := false, stCrc := false, stErr4 := false, stRecType := false, stWp := false } }

/-- R283: what survives both resets, and that a command in flight does not and leaves no INTRQ. -/
def Obligations.WhatSurvivesEveryReset : Prop :=
  (∀ s t : State, ∀ op, (op = .reset ∨ pulses op s) → perform op s = .next t →
    t.ctl.now = s.ctl.now ∧ bytesKept s t ∧
    (∀ d, (t.drv.get d).image = (s.drv.get d).image ∧ (t.drv.get d).hasDisk = (s.drv.get d).hasDisk ∧
      (t.drv.get d).readOnly = (s.drv.get d).readOnly ∧ (t.drv.get d).dirty = (s.drv.get d).dirty) ∧
    activeTransfer t = none ∧ t.ctl.intrq = false ∧ t.ctl.drq = false) ∧
  (∀ s t : State, perform .reset s = .next t → t.ctl.phase = .idle ∧
    ∀ d, (t.drv.get d).physicalTrack = (s.drv.get d).physicalTrack) ∧
  (∀ s t : State, ∀ op, pulses op s → perform op s = .next t →
    activeVariant t = .restore ∧
    ∀ d, d ≠ t.ctl.drive → (t.drv.get d).physicalTrack = (s.drv.get d).physicalTrack)

/-! ## The phase engine -/

/-- R170: a tick that reaches no deadline only moves the clock. -/
def Obligations.TickBeforeTheDeadlineMovesOnlyTheClock : Prop :=
  ∀ (s : State) (abs delta : Nat), s.ctl.now ≤ abs → (∀ d, s.ctl.deadline = some d → abs < d) →
    perform (.tick abs delta) s = .next { s with ctl := { s.ctl with now := abs } }

/-- R171, R172, R174, R175 (D16): the search deadline starts the transfer and asks for byte 0 at once; the ID
fields are captured for Read-Address (R151, D18). -/
def Obligations.SearchDeadlineAsksForTheFirstByte : Prop :=
  ∀ (s : State) (k : Transfer) (d delta : Nat), s.ctl.phase = .searching → activeTransfer s = some k →
    s.ctl.deadline = some d → s.ctl.now ≤ d → 1 ≤ s.cfg.tByte →
    ∃ t, perform (.tick d delta) s = .next t ∧
      byteRaised k d { s with ctl := { s.ctl with
        now := d, phase := .transferring, byteIndex := 0
        idBuf := if k = .readAddress then idFields s else s.ctl.idBuf } } t

/-- R171, R179: an inter-byte deadline reached with DRQ clear asks for the next byte. -/
def Obligations.InterByteDeadlineAsksForTheNextByte : Prop :=
  ∀ (s : State) (k : Transfer) (d delta : Nat), s.ctl.phase = .transferring → activeTransfer s = some k →
    s.ctl.byteIndex < xferLen k → s.ctl.drq = false → s.ctl.deadline = some d → s.ctl.now ≤ d →
    1 ≤ s.cfg.tByte →
    ∃ t, perform (.tick d delta) s = .next t ∧ byteRaised k d { s with ctl := { s.ctl with now := d } } t

/-- R178, R253 (D8, D31): a deadline reached with DRQ still set loses the byte: Lost-data, the index advanced,
and the next byte asked for at once, or the command completed after the last. -/
def Obligations.UnservicedByteIsLost : Prop :=
  ∀ (s : State) (k : Transfer) (d delta : Nat), s.ctl.phase = .transferring → activeTransfer s = some k →
    s.ctl.byteIndex < xferLen k → s.ctl.drq = true → s.ctl.deadline = some d → s.ctl.now ≤ d →
    1 ≤ s.cfg.tByte →
    ∃ t, perform (.tick d delta) s = .next t ∧
      (s.ctl.byteIndex + 1 ≠ xferLen k → byteRaised k d { s with ctl := { s.ctl with
        now := d, stLost := true, byteIndex := s.ctl.byteIndex + 1 } } t) ∧
      (s.ctl.byteIndex + 1 = xferLen k → t = { s with ctl := { s.ctl with
        now := d, stLost := true, byteIndex := s.ctl.byteIndex + 1
        phase := .idle, deadline := none, drq := false, intrq := true
        SR := if k = .readAddress then s.ctl.idBuf.track else s.ctl.SR } })

/-- R153: the sector-register quirk of Read-Address, at the consumption and at the loss of its last byte, also
after a host write to the sector register; and not by Force-Interrupt or a not-ready ending. -/
def Obligations.ReadAddressOverwritesTheSectorRegister : Prop :=
  (∀ (s : State) (z : Byte), activeVariant s = .readAddress → s.ctl.phase = .transferring →
    s.ctl.drq = true → s.ctl.byteIndex = 5 →
    ∃ t, exec (.rdData z) s = .next t ∧ t.ctl.phase = .idle ∧ t.ctl.SR = s.ctl.idBuf.track) ∧
  (∀ (s : State) (d delta : Nat), activeVariant s = .readAddress → s.ctl.phase = .transferring →
    s.ctl.drq = true → s.ctl.byteIndex = 5 → s.ctl.deadline = some d → s.ctl.now ≤ d →
    ∃ t, perform (.tick d delta) s = .next t ∧ t.ctl.phase = .idle ∧ t.ctl.SR = s.ctl.idBuf.track) ∧
  (∀ (s : State) (z v : Byte), activeVariant s = .readAddress → s.ctl.phase = .transferring →
    s.ctl.drq = true → s.ctl.byteIndex = 5 →
    ∃ u t, exec (.wrSector v) s = .next u ∧ exec (.rdData z) u = .next t ∧
      t.ctl.SR = s.ctl.idBuf.track) ∧
  (∀ (s : State) (I : BitVec 4), ∃ t, exec (.forceInt I) s = .next t ∧ t.ctl.SR = s.ctl.SR) ∧
  (∀ (s : State) (x3 E x1 x0 : Bool), s.ctl.phase = .idle → ready s = false →
    ∃ t, exec (.rdAddr x3 E x1 x0) s = .next t ∧ t.ctl.SR = s.ctl.SR)

/-- R151, R152 (D18, D19): the ID fields, and the spec's check values of the CRC. -/
def Obligations.IdFieldsComeFromTheRegisters : Prop :=
  (∀ s : State, (idFields s).track = s.ctl.TR ∧ (idFields s).side.toNat = s.ctl.side.val ∧
    (idFields s).sector = s.ctl.SR ∧ (idFields s).lenCode = 1#8 ∧
    (idFields s).crcHigh ++ (idFields s).crcLow =
      idCrc s.ctl.TR (idFields s).side s.ctl.SR 1#8) ∧
  idCrc 0#8 0#8 1#8 1#8 = 0xFA0C#16 ∧ idCrc 0#8 0#8 9#8 1#8 = 0x73A5#16 ∧
  idCrc 5#8 0#8 1#8 1#8 = 0x4649#16 ∧ idCrc 39#8 1#8 16#8 1#8 = 0x9B1D#16

/-- R182: a tick never has more deadlines to fire than `2 + 2 * XferLen(v)`, in any state. -/
def Obligations.TickFiresBoundedlyManyDeadlines : Prop :=
  ∀ (s : State) (abs delta : Nat), perform (.tick abs delta) s ≠ .fault .tickBound

/-- R170, R181 (D8): "one large tick and many small ticks that add up to it leave the same state, provided the
host issues no register access in between". -/
def Obligations.OneTickEqualsTwo : Prop :=
  ∀ (s : State) (a b delta₁ delta₂ delta₃ : Nat), Inv s → s.ctl.now ≤ a → a ≤ b →
    ∃ u, perform (.tick a delta₁) s = .next u ∧
      perform (.tick b delta₂) u = perform (.tick b delta₃) s

/-- R181, R296 (D8): a transfer nobody services, from its search deadline on, at any later tick. While bytes are
left, byte `(abs - d) / T_BYTE` is waiting, with its own window, and in `DR` for a read (the image's byte, or the
byte of the ID field captured at `d` for Read-Address); after the last one the command has completed with
Lost-data, in one tick however large. -/
def Obligations.UnservicedTransferRunsToItsEnd : Prop :=
  ∀ (s : State) (k : Transfer) (d abs delta : Nat), Inv s → s.ctl.phase = .searching →
    activeTransfer s = some k → s.ctl.deadline = some d → d ≤ abs →
    (k ≠ .readAddress → s.selected.hasDisk = true ∧
      ∀ i, i < xferLen k → (xferAddr k i s).isSome = true) →
    ∃ t, perform (.tick abs delta) s = .next t ∧ t.ctl.now = abs ∧ t.drv = s.drv ∧
      ((abs - d) / s.cfg.tByte < xferLen k →
        t.ctl.phase = .transferring ∧ t.ctl.drq = true ∧ t.ctl.intrq = false ∧
        t.ctl.byteIndex = (abs - d) / s.cfg.tByte ∧
        t.ctl.deadline = some (d + ((abs - d) / s.cfg.tByte + 1) * s.cfg.tByte) ∧
        (t.ctl.stLost = true ↔ s.ctl.stLost = true ∨ s.cfg.tByte ≤ abs - d) ∧
        (∀ a, isReadTransfer k = true → xferAddr k ((abs - d) / s.cfg.tByte) s = some a →
          t.ctl.DR = s.imageByte s.ctl.drive a) ∧
        ∀ r, k = .readAddress → idByte (idFields s) ((abs - d) / s.cfg.tByte) = some r → t.ctl.DR = r) ∧
      (xferLen k ≤ (abs - d) / s.cfg.tByte →
        t.ctl.phase = .idle ∧ t.ctl.deadline = none ∧ t.ctl.drq = false ∧ t.ctl.intrq = true ∧
        t.ctl.stLost = true ∧ t.ctl.byteIndex = xferLen k ∧
        t.ctl.SR = (if k = .readAddress then s.ctl.TR else s.ctl.SR))

/-! ## The sector addresser and the slots -/

/-- R211, R212 (formula: D15): `Lin` is valid exactly on its ranges, and is a bijection from the valid
arguments onto the offsets of an image. -/
def Obligations.LinIsABijectionOntoTheImage : Prop :=
  (∀ t s r o : Nat, (lin t s r o).isSome = true ↔ t < 80 ∧ s < 2 ∧ 1 ≤ r ∧ r ≤ 16 ∧ o < 256) ∧
  (∀ t s r o a : Nat, lin t s r o = some a → a = t * 8192 + s * 4096 + (r - 1) * 256 + o ∧ a < 655360) ∧
  (∀ t s r o t' s' r' o' a : Nat, lin t s r o = some a → lin t' s' r' o' = some a →
    t = t' ∧ s = s' ∧ r = r' ∧ o = o') ∧
  (∀ a : Nat, a < 655360 → ∃ t s r o, lin t s r o = some a)

/-- R213 (D20): a track's region holds its sectors one after another. -/
def Obligations.TrackRegionIsItsSectorsInOrder : Prop :=
  (∀ t s r o : Nat, 1 ≤ r → r ≤ 16 → o < 256 → trackLin t s ((r - 1) * 256 + o) = lin t s r o) ∧
  (∀ t s o : Nat, 4096 ≤ o → trackLin t s o = none)

/-- R218 (D35): a disk inserted holds the bytes handed over, whatever they are; the head and the other slots are
as before. -/
def Obligations.InsertedDiskHoldsItsBytes : Prop :=
  ∀ (s : State) (d : Fin 4) (bytes : List Byte) (ro : Bool), bytes.length = 655360 →
    ∃ t, perform (.insert d.val (Buffer.ofBytes bytes) ro) s = .next t ∧
      (∀ i, (h : i < bytes.length) → t.imageByte d i = bytes[i]) ∧
      t.drv.get d = { s.drv.get d with
        image := (t.drv.get d).image, hasDisk := true, readOnly := ro, dirty := false } ∧
      (∀ e, e ≠ d → t.drv.get e = s.drv.get e) ∧
      t.ctl = s.ctl ∧ t.cfg = s.cfg ∧ t.input = s.input ∧ t.trace = .inserted d true :: s.trace

/-- R218, R256: a load failure is returned to the caller, no slot changes, and the controller's state is not
involved. R256's words are a corrupt or undersized file; that every buffer of another size fails, an oversized
one too, is R218's, the spec's own decision (D35). -/
def Obligations.WrongSizeInsertChangesNothing : Prop :=
  ∀ (s : State) (d : Fin 4) (b : Buffer) (ro : Bool), b.size ≠ 655360 →
    perform (.insert d.val b ro) s = .next { s with trace := .inserted d false :: s.trace }

/-- R219 (D35). -/
def Obligations.EjectEmptiesTheSlot : Prop :=
  ∀ (s : State) (d : Fin 4), ∃ t, perform (.eject d.val) s = .next t ∧
    (t.drv.get d).hasDisk = false ∧ (t.drv.get d).readOnly = false ∧ (t.drv.get d).dirty = false ∧
    (t.drv.get d).physicalTrack = (s.drv.get d).physicalTrack ∧
    (∀ e, e ≠ d → t.drv.get e = s.drv.get e) ∧ t.ctl = s.ctl ∧ restKept s t

/-- R220 (D35): a flush puts out a dirty disk's bytes and clears `dirty`, and otherwise does nothing. -/
def Obligations.FlushWritesBackOnlyADirtyDisk : Prop :=
  ∀ (s : State) (d : Fin 4),
    ((s.drv.get d).hasDisk = true → (s.drv.get d).dirty = true →
      ∃ t, perform (.flush d.val) s = .next t ∧
        t.trace = .flushed d ⟨655360, (s.drv.get d).image⟩ :: s.trace ∧
        t.drv.get d = { s.drv.get d with dirty := false } ∧
        (∀ e, e ≠ d → t.drv.get e = s.drv.get e) ∧ bytesKept s t ∧
        t.ctl = s.ctl ∧ t.cfg = s.cfg ∧ t.input = s.input) ∧
    ((s.drv.get d).hasDisk = false ∨ (s.drv.get d).dirty = false →
      perform (.flush d.val) s = .next s)

/-! ## Rules of the whole machine -/

/-- R35, R195: the status family changes by a command write, a reset pulse or a system reset alone, and an
accepted command sets that of its variant. -/
def Obligations.FamilyChangesOnlyByCommandOrReset : Prop :=
  ∀ (s t : State) (op : HostOp), perform op s = .next t → t.ctl.family ≠ s.ctl.family →
    op = .reset ∨ pulses op s ∨
    ∃ b, writesCommand op b ∧ (s.ctl.phase = .idle ∨ classify b = .forceInterrupt) ∧
      familyOf (classify b) = some t.ctl.family

/-- R234 ("`physicalTrack` changes only by Type I commands") and R203: only the selected head moves, and only by
an accepted Type I command or the Restore of a reset pulse. -/
def Obligations.HeadMovesOnlyByTypeOneOrPulse : Prop :=
  ∀ (s t : State) (op : HostOp) (d : Fin 4), perform op s = .next t →
    (t.drv.get d).physicalTrack ≠ (s.drv.get d).physicalTrack →
    d = t.ctl.drive ∧
    (pulses op s ∨
      ∃ b, writesCommand op b ∧ isTypeOne (classify b) = true ∧ s.ctl.phase = .idle)

/-- R60, R221: a byte of an image changes only by an insert into its slot, or by a data-register write that
supplies it to a write command whose address it is; such a write marks the disk dirty. It ranges over empty
slots: that an eject, after which R219 says the image loses its meaning, keeps the bytes in the field is the
model's choice and no rule of the spec (DESIGN CHOICE, log entry 3). -/
def Obligations.ImageChangesOnlyByInsertOrDataWrite : Prop :=
  ∀ (s t : State) (op : HostOp) (d : Fin 4) (a : Nat), perform op s = .next t →
    t.imageByte d a ≠ s.imageByte d a →
    (∃ b ro, op = .insert d.val b ro) ∨
    (d = s.ctl.drive ∧ (t.drv.get d).dirty = true ∧ s.ctl.phase = .transferring ∧ s.ctl.drq = true ∧
      ∃ w v k, op = .word w ∧ decode w = .ok (.wrData v) ∧ activeTransfer s = some k ∧
        isReadTransfer k = false ∧ xferAddr k s.ctl.byteIndex s = some a)

/-- R37 (D9): the clock moves only by a tick, to the tick's count, and never back. -/
def Obligations.ClockMovesOnlyByTick : Prop :=
  ∀ (s t : State) (op : HostOp), perform op s = .next t →
    s.ctl.now ≤ t.ctl.now ∧
    (t.ctl.now ≠ s.ctl.now → ∃ abs delta, op = .tick abs delta ∧ t.ctl.now = abs)

/-- R268: "only the selected slot is acted on". What a slot that is not selected holds is neither seen nor
touched by an instruction (but a system control write, which may select it) or a tick. -/
def Obligations.UnselectedSlotIsNeitherSeenNorTouched : Prop :=
  (∀ (i : Instr) (s t : State) (d : Fin 4) (x : Drive), d ≠ s.ctl.drive → (∀ v, i ≠ .wrSys v) →
    exec i s = .next t → exec i (s.setDrive d x) = .next (t.setDrive d x)) ∧
  (∀ (s t : State) (abs delta : Nat) (d : Fin 4) (x : Drive), d ≠ s.ctl.drive →
    perform (.tick abs delta) s = .next t →
    perform (.tick abs delta) (s.setDrive d x) = .next (t.setDrive d x))
end

