-- ==== Sys2Proof/Laws/State.lean ====
section
/-! SUPPORT. What each named update does to each field of the state: one lemma per field per update. With the `ctl`
lemma of an update, `simp` reads off any register of the controller after it. -/

namespace Sys2Proof.Machine

/-! ### `setDrive` -/

@[simp] theorem setDrive_ctl (d : Fin 4) (x : Drive) (s : State) : (s.setDrive d x).ctl = s.ctl := rfl
@[simp] theorem setDrive_drv (d : Fin 4) (x : Drive) (s : State) :
    (s.setDrive d x).drv = s.drv.set d x := rfl
@[simp] theorem setDrive_cfg (d : Fin 4) (x : Drive) (s : State) : (s.setDrive d x).cfg = s.cfg := rfl
@[simp] theorem setDrive_input (d : Fin 4) (x : Drive) (s : State) :
    (s.setDrive d x).input = s.input := rfl
@[simp] theorem setDrive_trace (d : Fin 4) (x : Drive) (s : State) :
    (s.setDrive d x).trace = s.trace := rfl

/-! ### `emit` -/

@[simp] theorem emit_ctl (o : Output) (s : State) : (s.emit o).ctl = s.ctl := rfl
@[simp] theorem emit_drv (o : Output) (s : State) : (s.emit o).drv = s.drv := rfl
@[simp] theorem emit_cfg (o : Output) (s : State) : (s.emit o).cfg = s.cfg := rfl
@[simp] theorem emit_input (o : Output) (s : State) : (s.emit o).input = s.input := rfl
@[simp] theorem emit_trace (o : Output) (s : State) : (s.emit o).trace = o :: s.trace := rfl

/-! ### `issue` -/

@[simp] theorem issue_ctl (op : HostOp) (s : State) : (s.issue op).ctl = s.ctl := rfl
@[simp] theorem issue_drv (op : HostOp) (s : State) : (s.issue op).drv = s.drv := rfl
@[simp] theorem issue_cfg (op : HostOp) (s : State) : (s.issue op).cfg = s.cfg := rfl
@[simp] theorem issue_input (op : HostOp) (s : State) : (s.issue op).input = op :: s.input := rfl
@[simp] theorem issue_trace (op : HostOp) (s : State) : (s.issue op).trace = s.trace := rfl

/-! ### `setNow` -/

@[simp] theorem setNow_ctl (abs : Nat) (s : State) :
    (setNow abs s).ctl = { s.ctl with
      now := abs } := rfl
@[simp] theorem setNow_drv (abs : Nat) (s : State) : (setNow abs s).drv = s.drv := rfl
@[simp] theorem setNow_cfg (abs : Nat) (s : State) : (setNow abs s).cfg = s.cfg := rfl
@[simp] theorem setNow_input (abs : Nat) (s : State) : (setNow abs s).input = s.input := rfl
@[simp] theorem setNow_trace (abs : Nat) (s : State) : (setNow abs s).trace = s.trace := rfl

/-! ### `acknowledge` -/

@[simp] theorem acknowledge_ctl (s : State) : (acknowledge s).ctl = { s.ctl with intrq := false } := rfl
@[simp] theorem acknowledge_drv (s : State) : (acknowledge s).drv = s.drv := rfl
@[simp] theorem acknowledge_cfg (s : State) : (acknowledge s).cfg = s.cfg := rfl
@[simp] theorem acknowledge_input (s : State) : (acknowledge s).input = s.input := rfl
@[simp] theorem acknowledge_trace (s : State) : (acknowledge s).trace = s.trace := rfl

/-! ### `typeOneDone` -/

@[simp] theorem typeOneDone_ctl (s : State) :
    (typeOneDone s).ctl = { s.ctl with
      phase := .idle
      deadline := none
      intrq := true } := rfl
@[simp] theorem typeOneDone_drv (s : State) : (typeOneDone s).drv = s.drv := rfl
@[simp] theorem typeOneDone_cfg (s : State) : (typeOneDone s).cfg = s.cfg := rfl
@[simp] theorem typeOneDone_input (s : State) : (typeOneDone s).input = s.input := rfl
@[simp] theorem typeOneDone_trace (s : State) : (typeOneDone s).trace = s.trace := rfl

/-! ### `complete` -/

@[simp] theorem complete_ctl (s : State) :
    (complete s).ctl = { s.ctl with
      phase := .idle
      deadline := none
      drq := false
      intrq := true
      SR := if activeVariant s = .readAddress then s.ctl.idBuf.track else s.ctl.SR } := rfl
@[simp] theorem complete_drv (s : State) : (complete s).drv = s.drv := rfl
@[simp] theorem complete_cfg (s : State) : (complete s).cfg = s.cfg := rfl
@[simp] theorem complete_input (s : State) : (complete s).input = s.input := rfl
@[simp] theorem complete_trace (s : State) : (complete s).trace = s.trace := rfl

/-! ### `raiseNotReady` -/

@[simp] theorem raiseNotReady_ctl (s : State) :
    (raiseNotReady s).ctl = { s.ctl with
      intrq := true } := rfl
@[simp] theorem raiseNotReady_drv (s : State) : (raiseNotReady s).drv = s.drv := rfl
@[simp] theorem raiseNotReady_cfg (s : State) : (raiseNotReady s).cfg = s.cfg := rfl
@[simp] theorem raiseNotReady_input (s : State) : (raiseNotReady s).input = s.input := rfl
@[simp] theorem raiseNotReady_trace (s : State) : (raiseNotReady s).trace = s.trace := rfl

/-! ### `raiseWriteProtectAtAcceptance` -/

@[simp] theorem raiseWriteProtectAtAcceptance_ctl (s : State) :
    (raiseWriteProtectAtAcceptance s).ctl = { s.ctl with
      stWp := true
      intrq := true } := rfl
@[simp] theorem raiseWriteProtectAtAcceptance_drv (s : State) :
    (raiseWriteProtectAtAcceptance s).drv = s.drv := rfl
@[simp] theorem raiseWriteProtectAtAcceptance_cfg (s : State) :
    (raiseWriteProtectAtAcceptance s).cfg = s.cfg := rfl
@[simp] theorem raiseWriteProtectAtAcceptance_input (s : State) :
    (raiseWriteProtectAtAcceptance s).input = s.input := rfl
@[simp] theorem raiseWriteProtectAtAcceptance_trace (s : State) :
    (raiseWriteProtectAtAcceptance s).trace = s.trace := rfl

/-! ### `raiseLostData` -/

@[simp] theorem raiseLostData_ctl (s : State) :
    (raiseLostData s).ctl = { s.ctl with
      stLost := true } := rfl
@[simp] theorem raiseLostData_drv (s : State) : (raiseLostData s).drv = s.drv := rfl
@[simp] theorem raiseLostData_cfg (s : State) : (raiseLostData s).cfg = s.cfg := rfl
@[simp] theorem raiseLostData_input (s : State) : (raiseLostData s).input = s.input := rfl
@[simp] theorem raiseLostData_trace (s : State) : (raiseLostData s).trace = s.trace := rfl

/-! ### `raiseRecordNotFound` -/

@[simp] theorem raiseRecordNotFound_ctl (s : State) :
    (raiseRecordNotFound s).ctl = { s.ctl with
      stErr4 := true
      phase := .idle
      deadline := none
      drq := false
      intrq := true
      SR := if activeVariant s = .readAddress then s.ctl.idBuf.track else s.ctl.SR } := rfl
@[simp] theorem raiseRecordNotFound_drv (s : State) : (raiseRecordNotFound s).drv = s.drv := rfl
@[simp] theorem raiseRecordNotFound_cfg (s : State) : (raiseRecordNotFound s).cfg = s.cfg := rfl
@[simp] theorem raiseRecordNotFound_input (s : State) : (raiseRecordNotFound s).input = s.input := rfl
@[simp] theorem raiseRecordNotFound_trace (s : State) : (raiseRecordNotFound s).trace = s.trace := rfl

/-! ### `raiseWriteProtect` -/

@[simp] theorem raiseWriteProtect_ctl (s : State) :
    (raiseWriteProtect s).ctl = { s.ctl with
      stWp := true
      phase := .idle
      deadline := none
      drq := false
      intrq := true
      SR := if activeVariant s = .readAddress then s.ctl.idBuf.track else s.ctl.SR } := rfl
@[simp] theorem raiseWriteProtect_drv (s : State) : (raiseWriteProtect s).drv = s.drv := rfl
@[simp] theorem raiseWriteProtect_cfg (s : State) : (raiseWriteProtect s).cfg = s.cfg := rfl
@[simp] theorem raiseWriteProtect_input (s : State) : (raiseWriteProtect s).input = s.input := rfl
@[simp] theorem raiseWriteProtect_trace (s : State) : (raiseWriteProtect s).trace = s.trace := rfl

/-! ### `clearLatches` -/

@[simp] theorem clearLatches_ctl (s : State) :
    (clearLatches s).ctl = { s.ctl with
      stLost := false
      stCrc := false
      stErr4 := false
      stRecType := false
      stWp := false } := rfl
@[simp] theorem clearLatches_drv (s : State) : (clearLatches s).drv = s.drv := rfl
@[simp] theorem clearLatches_cfg (s : State) : (clearLatches s).cfg = s.cfg := rfl
@[simp] theorem clearLatches_input (s : State) : (clearLatches s).input = s.input := rfl
@[simp] theorem clearLatches_trace (s : State) : (clearLatches s).trace = s.trace := rfl

/-! ### `acceptPrologue` -/

@[simp] theorem acceptPrologue_ctl (b : Byte) (f : Family) (s : State) :
    (acceptPrologue b f s).ctl = { s.ctl with
      CR := b
      family := f
      intrq := false
      stLost := false
      stCrc := false
      stErr4 := false
      stRecType := false
      stWp := false } := rfl
@[simp] theorem acceptPrologue_drv (b : Byte) (f : Family) (s : State) :
    (acceptPrologue b f s).drv = s.drv := rfl
@[simp] theorem acceptPrologue_cfg (b : Byte) (f : Family) (s : State) :
    (acceptPrologue b f s).cfg = s.cfg := rfl
@[simp] theorem acceptPrologue_input (b : Byte) (f : Family) (s : State) :
    (acceptPrologue b f s).input = s.input := rfl
@[simp] theorem acceptPrologue_trace (b : Byte) (f : Family) (s : State) :
    (acceptPrologue b f s).trace = s.trace := rfl

/-! ### `enterSearching` -/

@[simp] theorem enterSearching_ctl (n : Nat) (s : State) :
    (enterSearching n s).ctl = { s.ctl with
      phase := .searching
      deadline := some (s.ctl.now + n) } := rfl
@[simp] theorem enterSearching_drv (n : Nat) (s : State) : (enterSearching n s).drv = s.drv := rfl
@[simp] theorem enterSearching_cfg (n : Nat) (s : State) : (enterSearching n s).cfg = s.cfg := rfl
@[simp] theorem enterSearching_input (n : Nat) (s : State) : (enterSearching n s).input = s.input := rfl
@[simp] theorem enterSearching_trace (n : Nat) (s : State) : (enterSearching n s).trace = s.trace := rfl

/-! ### `resetCore` -/

@[simp] theorem resetCore_ctl (s : State) :
    (resetCore s).ctl = { Controller.powerOn with
      drive := s.ctl.drive
      side := s.ctl.side
      motorOn := s.ctl.motorOn
      resetLine := s.ctl.resetLine
      now := s.ctl.now } := rfl
@[simp] theorem resetCore_drv (s : State) : (resetCore s).drv = s.drv := rfl
@[simp] theorem resetCore_cfg (s : State) : (resetCore s).cfg = s.cfg := rfl
@[simp] theorem resetCore_input (s : State) : (resetCore s).input = s.input := rfl
@[simp] theorem resetCore_trace (s : State) : (resetCore s).trace = s.trace := rfl

/-! ### `raiseDrq` -/

@[simp] theorem raiseDrq_ctl (d : Nat) (s : State) :
    (raiseDrq d s).ctl = { s.ctl with
      drq := true
      deadline := some (d + s.cfg.tByte) } := rfl
@[simp] theorem raiseDrq_drv (d : Nat) (s : State) : (raiseDrq d s).drv = s.drv := rfl
@[simp] theorem raiseDrq_cfg (d : Nat) (s : State) : (raiseDrq d s).cfg = s.cfg := rfl
@[simp] theorem raiseDrq_input (d : Nat) (s : State) : (raiseDrq d s).input = s.input := rfl
@[simp] theorem raiseDrq_trace (d : Nat) (s : State) : (raiseDrq d s).trace = s.trace := rfl

/-! ### `offer` -/

@[simp] theorem offer_ctl (r : Byte) (d : Nat) (s : State) :
    (offer r d s).ctl = { s.ctl with
      DR := r
      drq := true
      deadline := some (d + s.cfg.tByte) } := rfl
@[simp] theorem offer_drv (r : Byte) (d : Nat) (s : State) : (offer r d s).drv = s.drv := rfl
@[simp] theorem offer_cfg (r : Byte) (d : Nat) (s : State) : (offer r d s).cfg = s.cfg := rfl
@[simp] theorem offer_input (r : Byte) (d : Nat) (s : State) : (offer r d s).input = s.input := rfl
@[simp] theorem offer_trace (r : Byte) (d : Nat) (s : State) : (offer r d s).trace = s.trace := rfl

/-! ### `advance` -/

@[simp] theorem advance_ctl (s : State) :
    (advance s).ctl = { s.ctl with
      byteIndex := s.ctl.byteIndex + 1 } := rfl
@[simp] theorem advance_drv (s : State) : (advance s).drv = s.drv := rfl
@[simp] theorem advance_cfg (s : State) : (advance s).cfg = s.cfg := rfl
@[simp] theorem advance_input (s : State) : (advance s).input = s.input := rfl
@[simp] theorem advance_trace (s : State) : (advance s).trace = s.trace := rfl

/-! ### `enterTransferring` -/

@[simp] theorem enterTransferring_ctl (k : Transfer) (s : State) :
    (enterTransferring k s).ctl = { s.ctl with
      phase := .transferring
      byteIndex := 0
      idBuf := if k = .readAddress then idFields s else s.ctl.idBuf } := rfl
@[simp] theorem enterTransferring_drv (k : Transfer) (s : State) :
    (enterTransferring k s).drv = s.drv := rfl
@[simp] theorem enterTransferring_cfg (k : Transfer) (s : State) :
    (enterTransferring k s).cfg = s.cfg := rfl
@[simp] theorem enterTransferring_input (k : Transfer) (s : State) :
    (enterTransferring k s).input = s.input := rfl
@[simp] theorem enterTransferring_trace (k : Transfer) (s : State) :
    (enterTransferring k s).trace = s.trace := rfl

/-! ### `sysSelect` -/

@[simp] theorem sysSelect_ctl (v : Byte) (s : State) :
    (sysSelect v s).ctl = { s.ctl with
      drive := sysDrive v
      side := sysSide v
      motorOn := sysMotor v
      resetLine := sysReset v } := rfl
@[simp] theorem sysSelect_drv (v : Byte) (s : State) : (sysSelect v s).drv = s.drv := rfl
@[simp] theorem sysSelect_cfg (v : Byte) (s : State) : (sysSelect v s).cfg = s.cfg := rfl
@[simp] theorem sysSelect_input (v : Byte) (s : State) : (sysSelect v s).input = s.input := rfl
@[simp] theorem sysSelect_trace (v : Byte) (s : State) : (sysSelect v s).trace = s.trace := rfl

/-! ### What the active command and the addresses look at -/

theorem activeVariant_congr {s t : State} (h : t.ctl.CR = s.ctl.CR) : activeVariant t = activeVariant s := by
  simp [activeVariant, h]

theorem activeTransfer_congr {s t : State} (h : t.ctl.CR = s.ctl.CR) : activeTransfer t = activeTransfer s := by
  simp [activeTransfer, activeVariant, h]

theorem xferAddr_congr {s t : State} (k : Transfer) (i : Nat) (hT : t.ctl.TR = s.ctl.TR)
    (hS : t.ctl.SR = s.ctl.SR) (hs : t.ctl.side = s.ctl.side) : xferAddr k i t = xferAddr k i s := by
  cases k <;> simp [xferAddr, hT, hS, hs]

theorem selected_congr {s t : State} (hd : t.drv = s.drv) (hc : t.ctl.drive = s.ctl.drive) :
    t.selected = s.selected := by
  simp [State.selected, hd, hc]

theorem imageByte_congr {s t : State} (hd : t.drv = s.drv) (d : Fin 4) (a : Nat) :
    t.imageByte d a = s.imageByte d a := by
  simp [State.imageByte, hd]

end Sys2Proof.Machine
end

