-- ==== Sys2Proof/Laws/Drives.lean ====
section
/-! SUPPORT. The laws of the drive slots: one slot's update leaves the others alone. -/

namespace Sys2Proof.Machine

@[simp] theorem Drives.get_set_same (ds : Drives) (d : Fin 4) (x : Drive) : (ds.set d x).get d = x := by
  fin_cases d <;> rfl

theorem Drives.get_set_other (ds : Drives) {d e : Fin 4} (x : Drive) (h : e ≠ d) :
    (ds.set d x).get e = ds.get e := by
  fin_cases d <;> fin_cases e <;> first | rfl | exact absurd rfl h

theorem Drives.get_set (ds : Drives) (d e : Fin 4) (x : Drive) :
    (ds.set d x).get e = if e = d then x else ds.get e := by
  split
  · subst_vars; exact Drives.get_set_same ds _ x
  · exact Drives.get_set_other ds x ‹_›

@[simp] theorem Drives.set_get_self (ds : Drives) (d : Fin 4) : ds.set d (ds.get d) = ds := by
  fin_cases d <;> rfl

/-- A property of every slot survives an update whose new slot has it. -/
theorem Drives.forall_set {P : Drive → Prop} {ds : Drives} {d : Fin 4} {x : Drive}
    (h : ∀ e, P (ds.get e)) (hx : P x) : ∀ e, P ((ds.set d x).get e) := by
  intro e
  rw [Drives.get_set]
  split
  · exact hx
  · exact h e

end Sys2Proof.Machine
end

