-- ==== Sys2Proof/Laws/Memory.lean ====
section
/-! SUPPORT. The laws of an image's bytes: read after write, and the canonical form, which every operation
keeps. -/

namespace Sys2Proof.Machine

@[simp] theorem Memory.read_nil (a : Nat) : Memory.read [] a = Memory.unlisted := rfl

theorem Memory.read_cons (b : Nat) (v : Byte) (m : Memory) (a : Nat) :
    Memory.read ((b, v) :: m) a = if b = a then v else Memory.read m a := rfl

/-- Below where a memory starts, it lists nothing. -/
theorem Memory.read_below {m : Memory} {lo a : Nat} (h : Memory.wfFrom lo m = true) (ha : a < lo) :
    Memory.read m a = Memory.unlisted := by
  induction m generalizing lo with
  | nil => rfl
  | cons c m ih =>
    obtain ⟨b, v⟩ := c
    simp only [Memory.wfFrom, Bool.and_eq_true, decide_eq_true_eq] at h
    rw [Memory.read_cons, if_neg (by omega)]
    exact ih h.2 (by omega)

theorem Memory.wfFrom_mono {m : Memory} {lo lo' : Nat} (h : Memory.wfFrom lo m = true) (hle : lo' ≤ lo) :
    Memory.wfFrom lo' m = true := by
  cases m with
  | nil => rfl
  | cons c m =>
    obtain ⟨b, v⟩ := c
    simp only [Memory.wfFrom, Bool.and_eq_true, decide_eq_true_eq] at h ⊢
    exact ⟨⟨⟨by omega, h.1.1.2⟩, h.1.2⟩, h.2⟩

theorem Memory.read_push_same {m : Memory} {a : Nat} (v : Byte)
    (h : Memory.read m a = Memory.unlisted) : Memory.read (Memory.push a v m) a = v := by
  unfold Memory.push
  split
  · simp_all
  · simp [Memory.read_cons]

theorem Memory.read_push_other {m : Memory} {a b : Nat} (v : Byte) (h : b ≠ a) :
    Memory.read (Memory.push a v m) b = Memory.read m b := by
  unfold Memory.push
  split
  · rfl
  · simp [Memory.read_cons, h.symm]

theorem Memory.wfFrom_push {m : Memory} {lo a : Nat} (v : Byte) (hlo : lo ≤ a) (ha : a < IMAGE_SIZE)
    (h : Memory.wfFrom (a + 1) m = true) : Memory.wfFrom lo (Memory.push a v m) = true := by
  unfold Memory.push
  split
  · exact Memory.wfFrom_mono h (by omega)
  · simp_all [Memory.wfFrom]

theorem Memory.read_write_same {m : Memory} {lo : Nat} (h : Memory.wfFrom lo m = true) (a : Nat) (v : Byte) :
    Memory.read (Memory.write m a v) a = v := by
  induction m generalizing lo with
  | nil => exact Memory.read_push_same v rfl
  | cons c m ih =>
    obtain ⟨b, w⟩ := c
    simp only [Memory.wfFrom, Bool.and_eq_true, decide_eq_true_eq] at h
    unfold Memory.write
    split
    · refine Memory.read_push_same v ?_
      rw [Memory.read_cons, if_neg (by omega)]
      exact Memory.read_below h.2 (by omega)
    · split
      · exact Memory.read_push_same v (Memory.read_below h.2 (by omega))
      · rw [Memory.read_cons, if_neg (by omega)]
        exact ih h.2

theorem Memory.read_write_other (m : Memory) {a b : Nat} (v : Byte) (hab : b ≠ a) :
    Memory.read (Memory.write m a v) b = Memory.read m b := by
  induction m with
  | nil => exact Memory.read_push_other v hab
  | cons c m ih =>
    obtain ⟨e, w⟩ := c
    unfold Memory.write
    split
    · exact Memory.read_push_other v hab
    · split
      · rw [Memory.read_push_other v hab, Memory.read_cons, if_neg (by omega)]
      · rw [Memory.read_cons, Memory.read_cons, ih]

theorem Memory.wfFrom_write {m : Memory} {lo a : Nat} (v : Byte) (h : Memory.wfFrom lo m = true)
    (hlo : lo ≤ a) (ha : a < IMAGE_SIZE) : Memory.wfFrom lo (Memory.write m a v) = true := by
  induction m generalizing lo with
  | nil => exact Memory.wfFrom_push v hlo ha rfl
  | cons c m ih =>
    obtain ⟨b, w⟩ := c
    have h' := h
    simp only [Memory.wfFrom, Bool.and_eq_true, decide_eq_true_eq] at h'
    unfold Memory.write
    split
    · refine Memory.wfFrom_push v hlo ha ?_
      simp only [Memory.wfFrom, Bool.and_eq_true, decide_eq_true_eq]
      exact ⟨⟨⟨by omega, h'.1.1.2⟩, h'.1.2⟩, h'.2⟩
    · split
      · exact Memory.wfFrom_push v hlo ha (Memory.wfFrom_mono h'.2 (by omega))
      · simp only [Memory.wfFrom, Bool.and_eq_true, decide_eq_true_eq]
        exact ⟨h'.1, ih h'.2 (by omega)⟩

/-- A store keeps the canonical form. -/
theorem Memory.wf_write {m : Memory} (h : Memory.wf m = true) (v : Byte) {a : Nat} (ha : a < IMAGE_SIZE) :
    Memory.wf (Memory.write m a v) = true :=
  Memory.wfFrom_write v h (by omega) ha

/-- The image of a buffer is in canonical form. -/
theorem Memory.wf_ofCells (cells : List Host.Cell) : Memory.wf (Memory.ofCells cells) = true := by
  induction cells with
  | nil => rfl
  | cons c cells ih =>
    obtain ⟨a, v⟩ := c
    unfold Memory.ofCells
    split
    · exact Memory.wf_write ih v ‹_›
    · exact ih

/-- The image of a buffer reads as the buffer. -/
theorem Memory.read_ofCells (cells : List Host.Cell) {a : Nat} (ha : a < IMAGE_SIZE) :
    Memory.read (Memory.ofCells cells) a = Memory.read cells a := by
  induction cells with
  | nil => rfl
  | cons c cells ih =>
    obtain ⟨b, v⟩ := c
    unfold Memory.ofCells
    by_cases hab : b = a
    · subst hab
      rw [if_pos ha, Memory.read_write_same (Memory.wf_ofCells cells), Memory.read_cons, if_pos rfl]
    · rw [Memory.read_cons, if_neg hab, ← ih]
      split
      · exact Memory.read_write_other _ v (Ne.symm hab)
      · rfl

theorem read_cellsFrom_below (bytes : List Byte) {a b : Nat} (h : b < a) :
    Memory.read (cellsFrom a bytes) b = Memory.unlisted := by
  induction bytes generalizing a with
  | nil => rfl
  | cons v bytes ih =>
    rw [cellsFrom, Memory.read_push_other v (by omega)]
    exact ih (by omega)

/-- The buffer of a list of bytes holds those bytes. -/
theorem read_cellsFrom (bytes : List Byte) (a i : Nat) (hi : i < bytes.length) :
    Memory.read (cellsFrom a bytes) (a + i) = bytes[i] := by
  induction bytes generalizing a i with
  | nil => simp at hi
  | cons v bytes ih =>
    rw [cellsFrom]
    cases i with
    | zero => exact Memory.read_push_same v (read_cellsFrom_below bytes (by omega))
    | succ j =>
      rw [Memory.read_push_other v (by omega)]
      have := ih (a + 1) j (by simpa using hi)
      rw [show a + (j + 1) = a + 1 + j by omega, this]
      simp

end Sys2Proof.Machine
end

