-- ==== Sys2Proof/Laws/Ops.lean ====
section
/-! SUPPORT. One lemma per shared operation saying what it can do: the addresser, the image accesses, the head. -/

namespace Sys2Proof.Machine

/-! ### The addresser -/

/-- When `Lin` is valid, and what it then is (R211, R212). -/
theorem lin_eq_some {t s r o a : Nat} :
    lin t s r o = some a ↔
      (t < 80 ∧ s < 2 ∧ 1 ≤ r ∧ r ≤ 16 ∧ o < 256) ∧ a = t * 8192 + s * 4096 + (r - 1) * 256 + o := by
  have key : lin t s r o = if t < 80 ∧ s < 2 ∧ 1 ≤ r ∧ r < 17 ∧ o < 256 then
      some (((t * 2 + s) * 16 + (r - 1)) * 256 + o) else none := rfl
  rw [key]
  split <;> simp <;> omega

/-- When `TrackLin` is valid, and what it then is (R213). -/
theorem trackLin_eq_some {t s o a : Nat} :
    trackLin t s o = some a ↔ (t < 80 ∧ s < 2 ∧ o < 4096) ∧ a = t * 8192 + s * 4096 + o := by
  have key : trackLin t s o = if t < 80 ∧ s < 2 ∧ o < 4096 then
      some ((t * 2 + s) * 4096 + o) else none := rfl
  rw [key]
  split <;> simp <;> omega

theorem imageSize_eq : IMAGE_SIZE = 655360 := rfl

/-- A valid address lies in the image. -/
theorem xferAddr_lt {k : Transfer} {i : Nat} {s : State} {a : Nat} (h : xferAddr k i s = some a) :
    a < IMAGE_SIZE := by
  rw [imageSize_eq]
  cases k <;> simp only [xferAddr, lin_eq_some, trackLin_eq_some, reduceCtorEq] at h <;> omega

/-- A valid address belongs to a byte of the transfer. -/
theorem xferAddr_index {k : Transfer} {i : Nat} {s : State} {a : Nat} (h : xferAddr k i s = some a) :
    i < xferLen k := by
  cases k <;> simp only [xferAddr, lin_eq_some, trackLin_eq_some, reduceCtorEq] at h <;>
    simp only [xferLen, SECSIZE, TRACK_RAW_LEN, TRACK_BYTES, SPT] <;> omega

theorem xferLen_pos (k : Transfer) : 0 < xferLen k := by cases k <;> decide

/-! ### Classes of variants -/

theorem transferOf_isTypeOne {v : Variant} {k : Transfer} (h : transferOf v = some k) :
    isTypeOne v = false := by
  cases v <;> simp_all [transferOf, isTypeOne]

theorem familyOf_transfer {v : Variant} {k : Transfer} (h : transferOf v = some k) :
    familyOf v = some .typeII_III := by
  cases v <;> simp_all [transferOf, familyOf]

theorem familyOf_typeOne {v : Variant} (h : isTypeOne v = true) : familyOf v = some .typeI := by
  cases v <;> simp_all [isTypeOne, familyOf]

/-! ### Image accesses -/

theorem imgRead_some (d : Fin 4) (n : Nat) (s : State) :
    imgRead d (some n) s = if (s.drv.get d).hasDisk then some (s.imageByte d n) else none := rfl

theorem imgRead_eq_some {d : Fin 4} {a : Option Nat} {s : State} {x : Byte} :
    imgRead d a s = some x ↔ ∃ n, a = some n ∧ (s.drv.get d).hasDisk = true ∧ x = s.imageByte d n := by
  cases a with
  | none => simp [imgRead]
  | some n =>
    rw [imgRead_some]
    cases (s.drv.get d).hasDisk <;> simp [@eq_comm _ x]

theorem imgRead_eq_none {d : Fin 4} {a : Option Nat} {s : State} :
    imgRead d a s = none ↔ a = none ∨ (s.drv.get d).hasDisk = false := by
  cases a with
  | none => simp [imgRead]
  | some n =>
    rw [imgRead_some]
    cases (s.drv.get d).hasDisk <;> simp

/-- The slot a successful image write leaves (R215). -/
def storedSlot (x : Drive) (n : Nat) (v : Byte) : Drive :=
  { x with image := Memory.write x.image n v, dirty := true }

/-- The three cases of R215. -/
theorem imgWrite_eq (d : Fin 4) (a : Option Nat) (x : Byte) (s : State) :
    imgWrite d a x s =
      match a with
      | none => .error .range
      | some n =>
        if (s.drv.get d).hasDisk = false then .error .range
        else if (s.drv.get d).readOnly = true then .error .readOnly
        else .ok (s.setDrive d (storedSlot (s.drv.get d) n x)) := by
  cases a <;> rfl

/-- R215, inverted: what a successful image write has found and done. -/
theorem imgWrite_ok {d : Fin 4} {a : Option Nat} {x : Byte} {s t : State} :
    imgWrite d a x s = .ok t ↔
      ∃ n, a = some n ∧ (s.drv.get d).hasDisk = true ∧ (s.drv.get d).readOnly = false ∧
        t = s.setDrive d (storedSlot (s.drv.get d) n x) := by
  rw [imgWrite_eq]
  cases a with
  | none => simp
  | some n =>
    dsimp only
    split <;> rename_i h
    · simp [h]
    · split <;> rename_i h'
      · simp [h']
      · simp only [Bool.not_eq_false] at h
        simp only [Bool.not_eq_true] at h'
        simp only [Except.ok.injEq, Option.some.injEq, exists_eq_left', h, h', true_and]
        exact eq_comm

/-- R215, R261 item 2: the range failure is found first. -/
theorem imgWrite_error {d : Fin 4} {a : Option Nat} {x : Byte} {s : State} {e : WriteFail} :
    imgWrite d a x s = .error e ↔
      (e = .range ∧ (a = none ∨ (s.drv.get d).hasDisk = false)) ∨
      (e = .readOnly ∧ a ≠ none ∧ (s.drv.get d).hasDisk = true ∧ (s.drv.get d).readOnly = true) := by
  rw [imgWrite_eq]
  cases a with
  | none => cases e <;> simp
  | some n =>
    dsimp only
    split <;> rename_i h
    · cases e <;> simp [h]
    · split <;> rename_i h' <;> cases e <;> simp [h, h']

/-! ### The head -/

theorem clampTrack_eq (v : Int) : (clampTrack v : Int) = max 0 (min v 79) := by
  have : Int.ofNat (TRACKS - 1) = 79 := rfl
  simp only [clampTrack, this]
  omega

theorem clampTrack_lt (v : Int) : clampTrack v < TRACKS := by
  have := clampTrack_eq v
  have : TRACKS = 80 := rfl
  omega

@[simp] theorem movePhys_ctl (d : Fin 4) (n : Int) (s : State) : (movePhys d n s).ctl = s.ctl := rfl
@[simp] theorem movePhys_cfg (d : Fin 4) (n : Int) (s : State) : (movePhys d n s).cfg = s.cfg := rfl
@[simp] theorem movePhys_input (d : Fin 4) (n : Int) (s : State) : (movePhys d n s).input = s.input := rfl
@[simp] theorem movePhys_trace (d : Fin 4) (n : Int) (s : State) : (movePhys d n s).trace = s.trace := rfl

@[simp] theorem movePhys_drv (d : Fin 4) (n : Int) (s : State) :
    (movePhys d n s).drv = s.drv.set d { s.drv.get d with
      physicalTrack := clampTrack (Int.ofNat (s.drv.get d).physicalTrack + n) } := rfl

end Sys2Proof.Machine
end

