-- ==== Sys2Proof/Laws/PhaseEngine.lean ====
section
/-! SUPPORT. What a firing and a tick can do: the cases of `nextByte` and `fire`, what every firing leaves
alone, that firings run out, that the invariant survives them, that they do not look at the clock. -/

namespace Sys2Proof.Machine

/-! ### The next byte -/

theorem raiseDrq_eq_offer (d : Nat) (s : State) : raiseDrq d s = offer s.ctl.DR d s := rfl

/-- All `nextByte` can answer: Record-not-found, or DRQ raised with some byte in `DR`. -/
theorem nextByte_ok {k : Transfer} {d : Nat} {s t : State} (h : nextByte k d s = .ok t) :
    t = raiseRecordNotFound s ∨ ∃ r, t = offer r d s := by
  cases k <;> simp only [nextByte, presentId, presentImage, request, Except.ok.injEq] at h
  case readAddress =>
    split at h <;> simp only [Except.ok.injEq, reduceCtorEq] at h
    exact .inr ⟨_, h.symm⟩
  all_goals
    split at h
    · exact .inr ⟨_, h.symm⟩
    · exact .inl h.symm

/-- `nextByte` stops only for a seventh ID byte. -/
theorem nextByte_error {k : Transfer} {d : Nat} {s : State} {e : Fault} (h : nextByte k d s = .error e) :
    e = .idBufIndex ∧ k = .readAddress ∧ idByte s.ctl.idBuf s.ctl.byteIndex = none := by
  cases k <;> simp only [nextByte, presentId, reduceCtorEq] at h
  split at h <;> simp_all

theorem idByte_none {b : IdBuf} {i : Nat} (h : idByte b i = none) : 6 ≤ i := by
  unfold idByte at h
  split at h <;> simp_all
  omega

/-- `nextByte` answers for every byte of the transfer. -/
theorem nextByte_total {k : Transfer} (d : Nat) {s : State} (h : s.ctl.byteIndex < xferLen k) :
    ∃ t, nextByte k d s = .ok t := by
  cases hn : nextByte k d s with
  | ok t => exact ⟨t, rfl⟩
  | error e =>
    obtain ⟨-, rfl, hb⟩ := nextByte_error hn
    have := idByte_none hb
    simp only [xferLen] at h
    omega

/-- Past the last byte of an image transfer, `nextByte` raises no DRQ. -/
theorem nextByte_past {k : Transfer} {d : Nat} {s t : State} (h : nextByte k d s = .ok t)
    (hi : xferLen k ≤ s.ctl.byteIndex) : t = raiseRecordNotFound s := by
  have hx : xferAddr k s.ctl.byteIndex s = none := by
    cases ha : xferAddr k s.ctl.byteIndex s with
    | none => rfl
    | some a => exact absurd (xferAddr_index ha) (by omega)
  cases k <;> simp only [nextByte, presentId, presentImage, request, hx, imgRead, imgOk, Option.isSome_none,
    Bool.and_false, Except.ok.injEq, Bool.false_eq_true, if_false] at h
  case readAddress =>
    split at h <;> simp only [Except.ok.injEq, reduceCtorEq] at h
    rename_i r hb
    simp only [xferLen] at hi
    exfalso
    revert hb
    unfold idByte
    split <;> simp_all
  all_goals exact h.symm

/-! ### One firing -/

theorem lostByte_eq (k : Transfer) (d : Nat) (s : State) :
    lostByte k d s = if s.ctl.byteIndex + 1 = xferLen k then .ok (complete (advance (raiseLostData s)))
      else nextByte k d (advance (raiseLostData s)) := rfl

/-- R171, inverted: all the cases of a firing that answers. -/
theorem fire_cases {d : Nat} {s t : State} (h : fire d s = .ok t) :
    (s.ctl.phase = .searching ∧ isTypeOne (activeVariant s) = true ∧ t = typeOneDone s) ∨
    (∃ k, s.ctl.phase = .searching ∧ activeTransfer s = some k ∧
      nextByte k d (enterTransferring k s) = .ok t) ∨
    (∃ k, s.ctl.phase = .transferring ∧ activeTransfer s = some k ∧ s.ctl.drq = false ∧
      nextByte k d s = .ok t) ∨
    (∃ k, s.ctl.phase = .transferring ∧ activeTransfer s = some k ∧ s.ctl.drq = true ∧
      s.ctl.byteIndex + 1 = xferLen k ∧ t = complete (advance (raiseLostData s))) ∨
    (∃ k, s.ctl.phase = .transferring ∧ activeTransfer s = some k ∧ s.ctl.drq = true ∧
      s.ctl.byteIndex + 1 ≠ xferLen k ∧ nextByte k d (advance (raiseLostData s)) = .ok t) := by
  unfold fire at h
  split at h <;> rename_i hp
  · simp at h
  · split at h <;> rename_i h1
    · exact .inl ⟨hp, h1, (Except.ok.inj h).symm⟩
    · split at h <;> rename_i hk
      · exact .inr (.inl ⟨_, hp, hk, h⟩)
      · simp at h
  · split at h <;> rename_i hk
    · split at h <;> rename_i hd
      · rw [lostByte_eq] at h
        split at h <;> rename_i hl
        · exact .inr (.inr (.inr (.inl ⟨_, hp, hk, hd, hl, (Except.ok.inj h).symm⟩)))
        · exact .inr (.inr (.inr (.inr ⟨_, hp, hk, hd, hl, h⟩)))
      · exact .inr (.inr (.inl ⟨_, hp, hk, by simpa using hd, h⟩))
    · simp at h

/-- What no firing changes: the drives, the delays, the stream, the trace, and every controller field but the
ones named in R171 to R180. -/
structure FiringKeeps (s t : State) : Prop where
  drv : t.drv = s.drv
  cfg : t.cfg = s.cfg
  input : t.input = s.input
  trace : t.trace = s.trace
  CR : t.ctl.CR = s.ctl.CR
  TR : t.ctl.TR = s.ctl.TR
  drive : t.ctl.drive = s.ctl.drive
  side : t.ctl.side = s.ctl.side
  motorOn : t.ctl.motorOn = s.ctl.motorOn
  resetLine : t.ctl.resetLine = s.ctl.resetLine
  stepDir : t.ctl.stepDir = s.ctl.stepDir
  stepRate : t.ctl.stepRate = s.ctl.stepRate
  family : t.ctl.family = s.ctl.family
  now : t.ctl.now = s.ctl.now
  stCrc : t.ctl.stCrc = s.ctl.stCrc
  stRecType : t.ctl.stRecType = s.ctl.stRecType
  stWp : t.ctl.stWp = s.ctl.stWp

theorem FiringKeeps.refl (s : State) : FiringKeeps s s := by constructor <;> rfl

theorem FiringKeeps.trans {s t u : State} (h : FiringKeeps s t) (h' : FiringKeeps t u) : FiringKeeps s u := by
  constructor <;> simp [h.drv, h.cfg, h.input, h.trace, h.CR, h.TR, h.drive, h.side, h.motorOn, h.resetLine,
    h.stepDir, h.stepRate, h.family, h.now, h.stCrc, h.stRecType, h.stWp, h'.drv, h'.cfg, h'.input, h'.trace,
    h'.CR, h'.TR, h'.drive, h'.side, h'.motorOn, h'.resetLine, h'.stepDir, h'.stepRate, h'.family, h'.now,
    h'.stCrc, h'.stRecType, h'.stWp]

theorem nextByte_keeps {k : Transfer} {d : Nat} {s t : State} (h : nextByte k d s = .ok t) :
    FiringKeeps s t := by
  obtain rfl | ⟨r, rfl⟩ := nextByte_ok h <;> constructor <;> rfl

/-- Every firing keeps them. -/
theorem fire_keeps {d : Nat} {s t : State} (h : fire d s = .ok t) : FiringKeeps s t := by
  obtain ⟨-, -, rfl⟩ | ⟨k, -, -, hn⟩ | ⟨k, -, -, -, hn⟩ | ⟨k, -, -, -, -, rfl⟩ | ⟨k, -, -, -, -, hn⟩ :=
    fire_cases h
  · constructor <;> rfl
  · exact FiringKeeps.trans (by constructor <;> rfl) (nextByte_keeps hn)
  · exact nextByte_keeps hn
  · constructor <;> rfl
  · exact FiringKeeps.trans (by constructor <;> rfl) (nextByte_keeps hn)

/-! ### Firings run out (R182) -/

/-- A bound on the firings still to come. -/
def firingsLeft (s : State) : Nat :=
  if s.ctl.deadline = none then 0
  else
    match s.ctl.phase, activeTransfer s with
    | .searching, some k => xferLen k + 2
    | .transferring, some k => (xferLen k - s.ctl.byteIndex) + (if s.ctl.drq then 1 else 2)
    | _, _ => 1

theorem firingsLeft_le_tickFuel (s : State) : firingsLeft s ≤ tickFuel s := by
  unfold firingsLeft tickFuel
  cases s.ctl.phase <;> cases activeTransfer s <;> dsimp only <;> split <;> try omega
  split <;> omega

theorem firingsLeft_none {s : State} (h : s.ctl.deadline = none) : firingsLeft s = 0 := by
  simp [firingsLeft, h]

theorem firingsLeft_pos {s : State} {d : Nat} (h : s.ctl.deadline = some d) : 0 < firingsLeft s := by
  simp only [firingsLeft, h, reduceCtorEq, if_false]
  split
  · omega
  · split <;> omega
  · omega

theorem firingsLeft_searching {s : State} {k : Transfer} {d : Nat} (hd : s.ctl.deadline = some d)
    (hp : s.ctl.phase = .searching) (hk : activeTransfer s = some k) : firingsLeft s = xferLen k + 2 := by
  simp [firingsLeft, hd, hp, hk]

theorem firingsLeft_transferring {s : State} {k : Transfer} {d : Nat} (hd : s.ctl.deadline = some d)
    (hp : s.ctl.phase = .transferring) (hk : activeTransfer s = some k) :
    firingsLeft s = (xferLen k - s.ctl.byteIndex) + (if s.ctl.drq then 1 else 2) := by
  simp [firingsLeft, hd, hp, hk]

theorem firingsLeft_nextByte {k : Transfer} {d : Nat} {s t : State} (hp : s.ctl.phase = .transferring)
    (hk : activeTransfer s = some k) (h : nextByte k d s = .ok t) :
    firingsLeft t ≤ xferLen k - s.ctl.byteIndex + 1 ∧
      (xferLen k ≤ s.ctl.byteIndex → firingsLeft t = 0) := by
  refine ⟨?_, fun hi => ?_⟩
  · obtain rfl | ⟨r, rfl⟩ := nextByte_ok h
    · simp [firingsLeft]
    · exact (firingsLeft_transferring (s := offer r d s) rfl hp hk).le
  · rw [nextByte_past h hi]
    simp [firingsLeft]

/-- Every firing of a pending deadline leaves fewer to come. -/
theorem fire_decreases {d e : Nat} {s t : State} (he : s.ctl.deadline = some e) (h : fire d s = .ok t) :
    firingsLeft t < firingsLeft s := by
  obtain ⟨-, -, rfl⟩ | ⟨k, hp, hk, hn⟩ | ⟨k, hp, hk, hd, hn⟩ | ⟨k, -, -, -, -, rfl⟩ |
    ⟨k, hp, hk, hd, hl, hn⟩ := fire_cases h
  · rw [firingsLeft_none rfl]
    exact firingsLeft_pos he
  · have := (firingsLeft_nextByte (s := enterTransferring k s) rfl hk hn).1
    have hs := firingsLeft_searching he hp hk
    simp only [enterTransferring_ctl] at this
    omega
  · have := (firingsLeft_nextByte hp hk hn).1
    have hs := firingsLeft_transferring he hp hk
    simp only [hd, Bool.false_eq_true, if_false] at hs
    omega
  · rw [firingsLeft_none rfl]
    exact firingsLeft_pos he
  · have hs := firingsLeft_transferring he hp hk
    have := firingsLeft_nextByte (s := advance (raiseLostData s)) hp hk hn
    simp only [hd, if_true] at hs
    simp only [advance_ctl, raiseLostData_ctl] at this
    by_cases hi : xferLen k ≤ s.ctl.byteIndex + 1
    · have := this.2 hi
      omega
    · have := this.1
      omega

/-- A firing never reports the tick's own bound. -/
theorem fire_not_tickBound {d : Nat} {s : State} : fire d s ≠ .error .tickBound := by
  intro h
  have hn : ∀ {k u}, nextByte k d u ≠ .error .tickBound := fun hb => absurd (nextByte_error hb).1 (by simp)
  unfold fire at h
  split at h
  · simp at h
  · split at h
    · simp at h
    · split at h
      · exact hn h
      · simp at h
  · split at h
    · split at h
      · rw [lostByte_eq] at h
        split at h
        · simp at h
        · exact hn h
      · exact hn h
    · simp at h

/-! ### The loop -/

theorem dueDeadline_some {s : State} {d : Nat} :
    dueDeadline s = some d ↔ s.ctl.deadline = some d ∧ d ≤ s.ctl.now := by
  unfold dueDeadline
  split
  · simp_all
  · split <;> simp_all
    · rintro rfl; assumption
    · rintro rfl; omega

theorem dueDeadline_none {s : State} :
    dueDeadline s = none ↔ ∀ d, s.ctl.deadline = some d → s.ctl.now < d := by
  unfold dueDeadline
  split
  · simp_all
  · split <;> simp_all

theorem fireDue_done {s : State} (n : Nat) (h : dueDeadline s = none) : fireDue n s = .ok s := by
  cases n <;> rw [fireDue, h]

theorem fireDue_next {s : State} {d : Nat} (n : Nat) (h : dueDeadline s = some d) :
    fireDue (n + 1) s = (match fire d s with | .ok t => fireDue n t | .error e => .error e) := by
  cases hf : fire d s <;> (rw [fireDue, h]; simp only [hf])

/-- Enough fuel is enough (R182): what the loop answers does not depend on how much there is. -/
theorem fireDue_fuel {s : State} {n m : Nat} (hn : firingsLeft s ≤ n) (hm : firingsLeft s ≤ m) :
    fireDue n s = fireDue m s := by
  induction n generalizing s m with
  | zero =>
    cases hd : dueDeadline s with
    | none => rw [fireDue_done _ hd, fireDue_done _ hd]
    | some d => have := firingsLeft_pos (dueDeadline_some.1 hd).1; omega
  | succ n ih =>
    cases hd : dueDeadline s with
    | none => rw [fireDue_done _ hd, fireDue_done _ hd]
    | some d =>
      have hp := (dueDeadline_some.1 hd).1
      have := firingsLeft_pos hp
      obtain ⟨m, rfl⟩ : ∃ j, m = j + 1 := ⟨m - 1, by omega⟩
      rw [fireDue_next n hd, fireDue_next m hd]
      cases hf : fire d s with
      | error e => rfl
      | ok t =>
        have := fire_decreases hp hf
        exact ih (by omega) (by omega)

/-- With enough fuel the loop's own bound is never met (R182). -/
theorem fireDue_not_tickBound {s : State} {n : Nat} (hn : firingsLeft s ≤ n) :
    fireDue n s ≠ .error .tickBound := by
  induction n generalizing s with
  | zero =>
    cases hd : dueDeadline s with
    | none => rw [fireDue_done _ hd]; simp
    | some d => have := firingsLeft_pos (dueDeadline_some.1 hd).1; omega
  | succ n ih =>
    cases hd : dueDeadline s with
    | none => rw [fireDue_done _ hd]; simp
    | some d =>
      rw [fireDue_next n hd]
      cases hf : fire d s with
      | error e => intro h; exact fire_not_tickBound (hf.trans h)
      | ok t =>
        have := fire_decreases (dueDeadline_some.1 hd).1 hf
        exact ih (by omega)

/-- A property every firing keeps, the loop keeps. -/
theorem fireDue_induct {P : State → Prop} (hstep : ∀ d s t, P s → dueDeadline s = some d → fire d s = .ok t → P t)
    {n : Nat} {s t : State} (hs : P s) (h : fireDue n s = .ok t) : P t ∧ dueDeadline t = none := by
  induction n generalizing s with
  | zero =>
    cases hd : dueDeadline s with
    | none => rw [fireDue_done _ hd] at h; cases h; exact ⟨hs, hd⟩
    | some d => rw [fireDue, hd] at h; cases h
  | succ n ih =>
    cases hd : dueDeadline s with
    | none => rw [fireDue_done _ hd] at h; cases h; exact ⟨hs, hd⟩
    | some d =>
      rw [fireDue_next n hd] at h
      cases hf : fire d s with
      | error e => rw [hf] at h; cases h
      | ok u => rw [hf] at h; exact ih (hstep d s u hs hd hf) h

theorem fireDue_keeps {n : Nat} {s t : State} (h : fireDue n s = .ok t) : FiringKeeps s t :=
  (fireDue_induct (P := FiringKeeps s) (fun _ _ _ hs _ hf => hs.trans (fire_keeps hf)) (FiringKeeps.refl s) h).1

/-! ### The clock -/

@[simp] theorem setNow_setNow (a b : Nat) (s : State) : setNow b (setNow a s) = setNow b s := rfl

theorem nextByte_setNow (k : Transfer) (d n : Nat) (s : State) :
    nextByte k d (setNow n s) = (nextByte k d s).map (setNow n) := by
  have hx : xferAddr k (setNow n s).ctl.byteIndex (setNow n s) = xferAddr k s.ctl.byteIndex s :=
    xferAddr_congr k _ rfl rfl rfl
  have hr : ∀ a, imgRead (setNow n s).ctl.drive a (setNow n s) = imgRead s.ctl.drive a s := by
    intro a; cases a <;> rfl
  have hk : ∀ a, imgOk (setNow n s).ctl.drive a (setNow n s) = imgOk s.ctl.drive a s := fun _ => rfl
  cases k <;> simp only [nextByte, presentImage, presentId, request, hx, hr, hk]
  case readAddress =>
    simp only [setNow_ctl]
    split <;> rfl
  all_goals
    split <;> rfl

/-- A firing does not look at the clock: its deadlines count from the fired one (R181). -/
theorem fire_setNow (d n : Nat) (s : State) : fire d (setNow n s) = (fire d s).map (setNow n) := by
  have hv : activeVariant (setNow n s) = activeVariant s := rfl
  have ht : activeTransfer (setNow n s) = activeTransfer s := rfl
  unfold fire
  rw [hv, ht, setNow_ctl]
  dsimp only
  cases s.ctl.phase with
  | idle => rfl
  | searching =>
    dsimp only
    split
    · rfl
    · split
      · exact nextByte_setNow _ d n (enterTransferring _ s)
      · rfl
  | transferring =>
    dsimp only
    split
    · split
      · rw [lostByte_eq, lostByte_eq, setNow_ctl]
        dsimp only
        split
        · rfl
        · exact nextByte_setNow _ d n (advance (raiseLostData s))
      · exact nextByte_setNow _ d n s
    · rfl

/-- What was due at one time is what is first due at a later one (R170, R181). -/
theorem fireDue_later {a b : Nat} (hab : a ≤ b) {n m : Nat} {s t : State}
    (h : fireDue n (setNow a s) = .ok t) (hm : firingsLeft s ≤ m) :
    fireDue m (setNow b s) = fireDue m (setNow b t) ∧ firingsLeft t ≤ firingsLeft s := by
  induction n generalizing s m with
  | zero =>
    cases hd : dueDeadline (setNow a s) with
    | none => rw [fireDue_done _ hd] at h; cases h; exact ⟨rfl, le_rfl⟩
    | some d => rw [fireDue, hd] at h; cases h
  | succ n ih =>
    cases hd : dueDeadline (setNow a s) with
    | none => rw [fireDue_done _ hd] at h; cases h; exact ⟨rfl, le_rfl⟩
    | some d =>
      rw [fireDue_next n hd] at h
      obtain ⟨hp, hle⟩ := dueDeadline_some.1 hd
      have hp' : s.ctl.deadline = some d := hp
      have hb : dueDeadline (setNow b s) = some d := dueDeadline_some.2 ⟨hp, by simp at hle ⊢; omega⟩
      have hpos := firingsLeft_pos hp'
      obtain ⟨m, rfl⟩ : ∃ j, m = j + 1 := ⟨m - 1, by omega⟩
      rw [fire_setNow] at h
      rw [fireDue_next m hb, fire_setNow]
      cases hf : fire d s with
      | error e => rw [hf] at h; cases h
      | ok u =>
        rw [hf] at h
        have hlt := fire_decreases hp' hf
        obtain ⟨h1, h2⟩ := ih (s := u) (m := m) h (by omega)
        refine ⟨?_, by omega⟩
        simp only [Except.map]
        rw [h1]
        exact fireDue_fuel (show firingsLeft t ≤ _ by omega) (show firingsLeft t ≤ _ by omega)

end Sys2Proof.Machine
end

