-- ==== Sys2Proof/Laws/Invariant.lean ====
section
/-! SUPPORT. Each shared operation keeps the invariants. -/

namespace Sys2Proof.Machine

/-! ### The controller's invariant, phase by phase -/

theorem CtlInv.ofIdle {c : Controller} (hp : c.phase = .idle) (hd : c.deadline = none) (hq : c.drq = false)
    (hf : c.family = .typeI → anyLatched c = false) : CtlInv c where
  idleIffNoDeadline := by simp [hp, hd]
  drqTransferring := by simp [hq]
  searchingCommand := by simp [hp]
  transferRunning := by simp [hp]
  familyOfCommand := by simp [hp]
  typeIClean h := ⟨hf h, hq⟩
  busyNoIntrq := by simp [hp]

theorem CtlInv.ofSettling {c : Controller} {d : Nat} (hp : c.phase = .searching) (hd : c.deadline = some d)
    (hq : c.drq = false) (hv : isTypeOne (classify c.CR) = true) (hf : c.family = .typeI)
    (hl : anyLatched c = false) (hi : c.intrq = false) : CtlInv c where
  idleIffNoDeadline := by simp [hp, hd]
  drqTransferring := by simp [hq]
  searchingCommand _ := .inl hv
  transferRunning := by simp [hp]
  familyOfCommand _ := by rw [familyOf_typeOne hv, hf]
  typeIClean _ := ⟨hl, hq⟩
  busyNoIntrq _ := hi

theorem CtlInv.ofSearching {c : Controller} {d : Nat} {k : Transfer} (hp : c.phase = .searching)
    (hd : c.deadline = some d) (hq : c.drq = false) (hv : transferOf (classify c.CR) = some k)
    (hf : c.family = .typeII_III) (hi : c.intrq = false) : CtlInv c where
  idleIffNoDeadline := by simp [hp, hd]
  drqTransferring := by simp [hq]
  searchingCommand _ := .inr (by simp [hv])
  transferRunning := by simp [hp]
  familyOfCommand _ := by rw [familyOf_transfer hv, hf]
  typeIClean := by simp [hf]
  busyNoIntrq _ := hi

theorem CtlInv.ofTransferring {c : Controller} {d : Nat} {k : Transfer} (hp : c.phase = .transferring)
    (hd : c.deadline = some d) (hv : transferOf (classify c.CR) = some k) (hb : c.byteIndex < xferLen k)
    (hf : c.family = .typeII_III) (hi : c.intrq = false) : CtlInv c where
  idleIffNoDeadline := by simp [hp, hd]
  drqTransferring _ := hp
  searchingCommand := by simp [hp]
  transferRunning _ := ⟨k, hv, hb⟩
  familyOfCommand _ := by rw [familyOf_transfer hv, hf]
  typeIClean := by simp [hf]
  busyNoIntrq _ := hi

/-- A transfer in flight shows the Type II/III layout. -/
theorem CtlInv.transferFamily {c : Controller} {k : Transfer} (h : CtlInv c) (hp : c.phase ≠ .idle)
    (hk : transferOf (classify c.CR) = some k) : c.family = .typeII_III := by
  have := h.familyOfCommand hp
  rw [familyOf_transfer hk] at this
  exact (Option.some.inj this).symm

theorem CtlInv.deadline_busy {c : Controller} {d : Nat} (h : CtlInv c) (hd : c.deadline = some d) :
    c.phase ≠ .idle := by
  rw [Ne, h.idleIffNoDeadline, hd]; simp

/-! ### The phase engine -/

/-- A completed transfer. -/
theorem complete_ctlInv {s : State} (hf : s.ctl.family = .typeII_III) : CtlInv (complete s).ctl :=
  CtlInv.ofIdle rfl rfl rfl (by simp [hf])

theorem recordNotFound_ctlInv {s : State} (hf : s.ctl.family = .typeII_III) :
    CtlInv (raiseRecordNotFound s).ctl :=
  complete_ctlInv (s := { s with ctl := { s.ctl with stErr4 := true } }) hf

theorem writeProtect_ctlInv {s : State} (hf : s.ctl.family = .typeII_III) :
    CtlInv (raiseWriteProtect s).ctl :=
  complete_ctlInv (s := { s with ctl := { s.ctl with stWp := true } }) hf

theorem nextByte_ctlInv {k : Transfer} {d : Nat} {s t : State} (h : nextByte k d s = .ok t)
    (hp : s.ctl.phase = .transferring) (hk : activeTransfer s = some k) (hb : s.ctl.byteIndex < xferLen k)
    (hf : s.ctl.family = .typeII_III) (hi : s.ctl.intrq = false) : CtlInv t.ctl := by
  obtain rfl | ⟨r, rfl⟩ := nextByte_ok h
  · exact recordNotFound_ctlInv hf
  · exact CtlInv.ofTransferring hp rfl hk hb hf hi

/-- A pending deadline can be fired, and what it leaves meets the controller's invariant. -/
theorem fire_ctlInv {d e : Nat} {s : State} (h : CtlInv s.ctl) (he : s.ctl.deadline = some e) :
    ∃ t, fire d s = .ok t ∧ CtlInv t.ctl := by
  have hbusy := h.deadline_busy he
  have hi := h.busyNoIntrq hbusy
  cases hp : s.ctl.phase with
  | idle => exact absurd hp hbusy
  | searching =>
    unfold fire
    rw [hp]
    dsimp only
    split
    · rename_i h1
      have hf := h.familyOfCommand hbusy
      rw [familyOf_typeOne (v := classify s.ctl.CR) h1] at hf
      have hf := (Option.some.inj hf).symm
      refine ⟨_, rfl, CtlInv.ofIdle rfl rfl (h.typeIClean hf).2 fun _ => (h.typeIClean hf).1⟩
    · rename_i h1
      obtain ⟨k, hk⟩ := Option.isSome_iff_exists.1 ((h.searchingCommand hp).resolve_left h1)
      have hk' : activeTransfer s = some k := hk
      simp only [hk', beginTransfer]
      obtain ⟨t, ht⟩ := nextByte_total d (s := enterTransferring k s) (k := k) (xferLen_pos k)
      exact ⟨t, ht, nextByte_ctlInv ht rfl hk (xferLen_pos k) (h.transferFamily hbusy hk) hi⟩
  | transferring =>
    obtain ⟨k, hk, hb⟩ := h.transferRunning hp
    have hk' : activeTransfer s = some k := hk
    have hf := h.transferFamily hbusy hk
    unfold fire
    simp only [hp, hk']
    split
    · rw [lostByte_eq]
      split
      · exact ⟨_, rfl, complete_ctlInv hf⟩
      · rename_i hl
        have hb' : (advance (raiseLostData s)).ctl.byteIndex < xferLen k := by simp; omega
        obtain ⟨t, ht⟩ := nextByte_total d hb'
        exact ⟨t, ht, nextByte_ctlInv ht hp hk hb' hf hi⟩
    · obtain ⟨t, ht⟩ := nextByte_total d hb
      exact ⟨t, ht, nextByte_ctlInv ht hp hk hb hf hi⟩

/-- The loop answers, and keeps the controller's invariant. -/
theorem fireDue_ctlInv {s : State} {n : Nat} (h : CtlInv s.ctl) (hn : firingsLeft s ≤ n) :
    ∃ t, fireDue n s = .ok t ∧ CtlInv t.ctl := by
  induction n generalizing s with
  | zero =>
    cases hd : dueDeadline s with
    | none => exact ⟨s, fireDue_done _ hd, h⟩
    | some d => have := firingsLeft_pos (dueDeadline_some.1 hd).1; omega
  | succ n ih =>
    cases hd : dueDeadline s with
    | none => exact ⟨s, fireDue_done _ hd, h⟩
    | some d =>
      have hp := (dueDeadline_some.1 hd).1
      obtain ⟨u, hu, hinv⟩ := fire_ctlInv (d := d) h hp
      have := fire_decreases hp hu
      obtain ⟨t, ht, htinv⟩ := ih hinv (by omega)
      exact ⟨t, by rw [fireDue_next n hd, hu]; exact ht, htinv⟩

/-- The tick answers inside the host contract, and keeps the invariants. -/
theorem tick_inv {s : State} {abs delta : Nat} (h : Inv s) (ha : s.ctl.now ≤ abs) :
    ∃ t, tick abs delta s = .next t ∧ Inv t := by
  have hc : CtlInv (setNow abs s).ctl := by
    constructor <;> simp only [setNow_ctl]
    exacts [h.ctl.idleIffNoDeadline, h.ctl.drqTransferring, h.ctl.searchingCommand, h.ctl.transferRunning,
      h.ctl.familyOfCommand, h.ctl.typeIClean, h.ctl.busyNoIntrq]
  obtain ⟨t, ht, htc⟩ := fireDue_ctlInv (n := tickFuel s) hc (firingsLeft_le_tickFuel (setNow abs s))
  have hk := fireDue_keeps ht
  have hdue := (fireDue_induct (P := fun _ => True) (fun _ _ _ _ _ _ => trivial) trivial ht).2
  refine ⟨t, ?_, ?_⟩
  · simp only [tick, if_neg (Nat.not_lt.2 ha), ht]
  · exact ⟨by rw [hk.cfg]; exact h.delays, htc, dueDeadline_none.1 hdue, by rw [hk.drv]; exact h.slots⟩

/-! ### Slots -/

theorem Inv.setDrive {s : State} {d : Fin 4} {x : Drive} (h : Inv s) (hx : SlotInv x) :
    Inv (s.setDrive d x) :=
  ⟨h.delays, h.ctl, h.ahead, Drives.forall_set h.slots hx⟩

theorem Inv.emit {s : State} (o : Output) (h : Inv s) : Inv (s.emit o) := ⟨h.delays, h.ctl, h.ahead, h.slots⟩

theorem Inv.withInput {s : State} (ops : List HostOp) (h : Inv s) : Inv { s with input := ops } :=
  ⟨h.delays, h.ctl, h.ahead, h.slots⟩

theorem movePhys_slots {s : State} (d : Fin 4) (n : Int) (h : ∀ e, SlotInv (s.drv.get e)) :
    ∀ e, SlotInv ((movePhys d n s).drv.get e) := by
  rw [movePhys_drv]
  exact Drives.forall_set h ⟨clampTrack_lt _, (h d).imageCanonical, (h d).emptySlot⟩

theorem SlotInv.stored {x : Drive} {n : Nat} {v : Byte} (h : SlotInv x) (hd : x.hasDisk = true)
    (hn : n < IMAGE_SIZE) : SlotInv (storedSlot x n v) :=
  ⟨h.headOnTrack, Memory.wf_write h.imageCanonical v hn, by simp [storedSlot, hd]⟩

theorem insertDisk_inv {s : State} {d : Fin 4} (b : Buffer) (ro : Bool) (h : Inv s) :
    Inv (insertDisk b ro d s) := by
  unfold insertDisk
  split
  · exact h.emit _
  · have hx : SlotInv { s.drv.get d with
        image := Memory.ofCells b.cells, hasDisk := true, readOnly := ro, dirty := false } :=
      ⟨(h.slots d).headOnTrack, Memory.wf_ofCells _, by simp⟩
    exact (h.setDrive hx).emit _

theorem ejectDisk_inv {s : State} {d : Fin 4} (h : Inv s) : Inv (ejectDisk d s) :=
  h.setDrive ⟨(h.slots d).headOnTrack, (h.slots d).imageCanonical, by simp⟩

theorem flushDisk_inv {s : State} {d : Fin 4} (h : Inv s) : Inv (flushDisk d s) := by
  unfold flushDisk
  dsimp only
  split
  · rename_i hd
    have hx : SlotInv { s.drv.get d with dirty := false } :=
      ⟨(h.slots d).headOnTrack, (h.slots d).imageCanonical, by simp [hd.1]⟩
    exact (h.setDrive hx).emit _
  · exact h

/-! ### Commands -/

/-- What a Type I command's own movement may change: the track register, the step direction and the head. -/
structure MoveKeeps (s t : State) : Prop where
  ctl : ∃ tr dir, t.ctl = { s.ctl with TR := tr, stepDir := dir }
  cfg : t.cfg = s.cfg
  input : t.input = s.input
  trace : t.trace = s.trace
  head : ∃ n, t.drv = (movePhys s.ctl.drive n s).drv

theorem doRestore_keeps (s : State) : MoveKeeps s (doRestore s) :=
  ⟨⟨_, _, rfl⟩, rfl, rfl, rfl, ⟨_, rfl⟩⟩

theorem doSeek_keeps (s : State) : MoveKeeps s (doSeek s) :=
  ⟨⟨_, _, rfl⟩, rfl, rfl, rfl, ⟨_, rfl⟩⟩

theorem doStep_keeps (u : Bool) (s : State) : MoveKeeps s (doStep u s) := by
  cases u <;> exact ⟨⟨_, _, rfl⟩, rfl, rfl, rfl, ⟨_, rfl⟩⟩

theorem doStepIn_keeps (u : Bool) (s : State) : MoveKeeps s (doStepIn u s) := by
  cases u <;> exact ⟨⟨_, _, rfl⟩, rfl, rfl, rfl, ⟨_, rfl⟩⟩

theorem doStepOut_keeps (u : Bool) (s : State) : MoveKeeps s (doStepOut u s) := by
  cases u <;> exact ⟨⟨_, _, rfl⟩, rfl, rfl, rfl, ⟨_, rfl⟩⟩

/-- `TypeOne` on a controller whose prologue has run. -/
theorem typeOne_inv {s : State} {b : Byte} {move : State → State} (hm : ∀ u, MoveKeeps u (move u))
    (hd : s.cfg.valid) (hs : ∀ d, SlotInv (s.drv.get d)) (hv : isTypeOne (classify s.ctl.CR) = true)
    (hf : s.ctl.family = .typeI) (hl : anyLatched s.ctl = false) (hi : s.ctl.intrq = false)
    (hq : s.ctl.drq = false) : Inv (typeOne b move s) := by
  have h := hm { s with ctl := { s.ctl with stepRate := fieldR b } }
  obtain ⟨⟨tr, dir, hc⟩, hcfg, -, -, n, hdrv⟩ := h
  refine ⟨?_, ?_, ?_, ?_⟩
  · simp only [typeOne, enterSearching_cfg, hcfg]; exact hd
  · simp only [typeOne, enterSearching_ctl, hc]
    exact CtlInv.ofSettling rfl rfl hq hv hf hl hi
  · intro e he
    simp only [typeOne, enterSearching_ctl, Option.some.injEq] at he ⊢
    have := hd.1
    rw [hcfg] at he
    dsimp only at he
    omega
  · simp only [typeOne, enterSearching_drv, hdrv]
    exact movePhys_slots (s := { s with ctl := { s.ctl with stepRate := fieldR b } }) _ n hs

theorem whenIdle_inv {s : State} {start : State → State} (h : Inv s)
    (hs : s.ctl.phase = .idle → Inv (start s)) : Inv (whenIdle start s) := by
  unfold whenIdle
  split
  · exact hs ‹_›
  · exact h

theorem Inv.idle_drq {s : State} (h : Inv s) (hp : s.ctl.phase = .idle) : s.ctl.drq = false := by
  cases hq : s.ctl.drq with
  | false => rfl
  | true => have := h.ctl.drqTransferring hq; simp_all

theorem typeOneCommand_inv {s : State} {b : Byte} {move : State → State} (h : Inv s)
    (hm : ∀ u, MoveKeeps u (move u)) (hv : isTypeOne (classify b) = true) :
    Inv (typeOneCommand b move s) := by
  refine whenIdle_inv h fun hp => ?_
  exact typeOne_inv hm h.delays h.slots hv rfl rfl rfl (h.idle_drq hp)

theorem startSearch_inv {s : State} {k : Transfer} (hd : s.cfg.valid) (hs : ∀ d, SlotInv (s.drv.get d))
    (hv : transferOf (classify s.ctl.CR) = some k) (hf : s.ctl.family = .typeII_III)
    (hi : s.ctl.intrq = false) (hq : s.ctl.drq = false) : Inv (startSearch s) := by
  refine ⟨hd, CtlInv.ofSearching rfl rfl hq hv hf hi, ?_, hs⟩
  intro e he
  simp only [startSearch, enterSearching_ctl, Option.some.injEq] at he ⊢
  have := hd.2.1
  have := hd.1
  omega

/-- The state in which `TypeTwoThree` starts. -/
theorem typeTwoThreeCommand_inv {s : State} {b : Byte} {k : Transfer} (h : Inv s)
    (hv : transferOf (classify b) = some k) {start : State → State}
    (hstart : start = startRead ∨ start = startWrite) : Inv (typeTwoThreeCommand b start s) := by
  refine whenIdle_inv h fun hp => ?_
  have hq := h.idle_drq hp
  have hdl := h.ctl.idleIffNoDeadline.1 hp
  have hsearch : Inv (startSearch (acceptPrologue b .typeII_III s)) :=
    startSearch_inv h.delays h.slots hv rfl rfl hq
  have hnr : Inv (raiseNotReady (acceptPrologue b .typeII_III s)) :=
    ⟨h.delays, CtlInv.ofIdle hp hdl hq (by simp), by simp [deadlineAhead, hdl], h.slots⟩
  have hwp : Inv (raiseWriteProtectAtAcceptance (acceptPrologue b .typeII_III s)) :=
    ⟨h.delays, CtlInv.ofIdle hp hdl hq (by simp), by simp [deadlineAhead, hdl], h.slots⟩
  obtain rfl | rfl := hstart
  · unfold startRead
    split
    · exact hsearch
    · exact hnr
  · unfold startWrite
    split
    · split
      · exact hwp
      · exact hsearch
    · exact hnr

theorem forceInterruptCommand_inv {s : State} (b : Byte) (h : Inv s) : Inv (forceInterruptCommand b s) :=
  ⟨h.delays, CtlInv.ofIdle rfl rfl rfl (fun _ => rfl), by simp [deadlineAhead, forceInterruptCommand], h.slots⟩

theorem unknownCommand_inv {s : State} (b : Byte) (h : Inv s) : Inv (unknownCommand b s) := by
  refine whenIdle_inv h fun hp => ?_
  have hdl := h.ctl.idleIffNoDeadline.1 hp
  exact ⟨h.delays, CtlInv.ofIdle hp hdl (h.idle_drq hp) fun hf => (h.ctl.typeIClean hf).1,
    by simp [deadlineAhead, hdl], h.slots⟩

/-! ### Reset -/

theorem resetCore_slots (s : State) : (resetCore s).drv = s.drv := rfl

theorem systemReset_inv {s : State} (h : Inv s) : Inv (systemReset s) :=
  ⟨h.delays, CtlInv.ofIdle rfl rfl rfl (fun _ => rfl), by simp [deadlineAhead, systemReset, Controller.powerOn],
    h.slots⟩

theorem resetPulse_inv {s : State} (hd : s.cfg.valid) (hs : ∀ d, SlotInv (s.drv.get d)) : Inv (resetPulse s) := by
  unfold resetPulse autoRestore
  exact typeOne_inv doRestore_keeps hd hs
    (show isTypeOne (classify AUTO_RESTORE_BYTE) = true by decide) rfl rfl rfl rfl

theorem writeSys_inv {s : State} (v : Byte) (h : Inv s) : Inv (writeSys v s) := by
  unfold writeSys
  dsimp only
  split
  · exact resetPulse_inv h.delays h.slots
  · refine ⟨h.delays, ?_, h.ahead, h.slots⟩
    constructor <;> simp only [sysSelect_ctl]
    exacts [h.ctl.idleIffNoDeadline, h.ctl.drqTransferring, h.ctl.searchingCommand, h.ctl.transferRunning,
      h.ctl.familyOfCommand, h.ctl.typeIClean, h.ctl.busyNoIntrq]

/-! ### The data register -/

theorem consumed_inv {s : State} {k : Transfer} (hd : s.cfg.valid) (hs : ∀ d, SlotInv (s.drv.get d))
    (hp : s.ctl.phase = .transferring) (hk : activeTransfer s = some k) (hb : s.ctl.byteIndex < xferLen k)
    (hf : s.ctl.family = .typeII_III) (hi : s.ctl.intrq = false) : Inv (consumed k s) := by
  unfold consumed
  dsimp only
  split
  · exact ⟨hd, complete_ctlInv hf, by simp [deadlineAhead], hs⟩
  · rename_i hl
    simp only [advance_ctl] at hl
    refine ⟨hd, CtlInv.ofTransferring hp rfl hk ?_ hf hi, ?_, hs⟩
    · simp; omega
    · intro e he
      simp only [advance_ctl, advance_cfg, Option.some.injEq] at he ⊢
      have := hd.2.2
      omega

theorem readWaiting_some {s : State} {k : Transfer} (h : readWaiting s = some k) :
    activeTransfer s = some k ∧ s.ctl.phase = .transferring ∧ s.ctl.drq = true ∧ isReadTransfer k = true := by
  unfold readWaiting at h
  split at h
  · split at h
    · rename_i hc; cases h; exact ⟨‹_›, hc⟩
    · cases h
  · cases h

theorem writeWaiting_some {s : State} {k : Transfer} (h : writeWaiting s = some k) :
    activeTransfer s = some k ∧ s.ctl.phase = .transferring ∧ s.ctl.drq = true ∧ isReadTransfer k = false := by
  unfold writeWaiting at h
  split at h
  · split at h
    · rename_i hc; cases h; exact ⟨‹_›, hc⟩
    · cases h
  · cases h

theorem Inv.transfer {s : State} {k : Transfer} (h : Inv s) (hk : activeTransfer s = some k)
    (hp : s.ctl.phase = .transferring) :
    s.ctl.byteIndex < xferLen k ∧ s.ctl.family = .typeII_III ∧ s.ctl.intrq = false := by
  obtain ⟨k', hk', hb⟩ := h.ctl.transferRunning hp
  have hkk : k' = k := Option.some.inj (hk'.symm.trans hk)
  subst hkk
  have hbusy : s.ctl.phase ≠ .idle := by simp [hp]
  exact ⟨hb, h.ctl.transferFamily hbusy hk', h.ctl.busyNoIntrq hbusy⟩

theorem readDataEffect_inv {s : State} (h : Inv s) : Inv (readDataEffect s) := by
  unfold readDataEffect
  split
  · rename_i k hw
    obtain ⟨hk, hp, -, -⟩ := readWaiting_some hw
    obtain ⟨hb, hf, hi⟩ := h.transfer hk hp
    exact consumed_inv h.delays h.slots hp hk hb hf hi
  · exact h

theorem writeData_inv {s : State} (b : Byte) (h : Inv s) : Inv (writeData b s) := by
  have hDR : Inv { s with ctl := { s.ctl with DR := b } } := by
    refine ⟨h.delays, ?_, h.ahead, h.slots⟩
    exact ⟨h.ctl.idleIffNoDeadline, h.ctl.drqTransferring, h.ctl.searchingCommand, h.ctl.transferRunning,
      h.ctl.familyOfCommand, h.ctl.typeIClean, h.ctl.busyNoIntrq⟩
  unfold writeData
  dsimp only
  split
  · rename_i k hw
    obtain ⟨hk, hp, -, -⟩ := writeWaiting_some hw
    obtain ⟨hb, hf, hi⟩ := h.transfer hk hp
    unfold consumeWrite
    split
    · exact ⟨h.delays, writeProtect_ctlInv hf, by simp [deadlineAhead], h.slots⟩
    · exact ⟨h.delays, recordNotFound_ctlInv hf, by simp [deadlineAhead], h.slots⟩
    · rename_i t ht
      obtain ⟨n, hn, hdisk, -, rfl⟩ := imgWrite_ok.1 ht
      refine consumed_inv h.delays ?_ hp hk hb hf hi
      exact Drives.forall_set h.slots ((h.slots _).stored hdisk (xferAddr_lt hn))
  · exact hDR

end Sys2Proof.Machine
end

