-- ==== Sys2Proof/Laws/Commands.lean ====
section
/-! SUPPORT. What a command byte at the command register can do, and what an access of the data register can
do, said once each. -/

namespace Sys2Proof.Machine

/-! ### Command bytes -/

/-- Every byte is the encoding of the instruction it decodes to (R89). -/
theorem decode_command_total (b : Byte) : ∃ i, decode (.command b) = .ok i ∧ encode i = .command b := by
  have all : ∀ b : Byte, (match decodeCommand b with
      | .ok i => decide (encode i = .command b)
      | .error _ => false) = true := by decide
  have hb := all b
  cases h : decodeCommand b with
  | ok i => rw [h] at hb; exact ⟨i, h, by simpa using hb⟩
  | error e => rw [h] at hb; cases hb

/-- A command instruction is the write of its byte to the command register (R10, R232). -/
theorem exec_command {b : Byte} {i : Instr} (h : decode (.command b) = .ok i) (s : State) :
    exec i s = .next (writeCommand b s) := by
  obtain ⟨j, hj, he⟩ := decode_command_total b
  cases hj.symm.trans h
  simp only [exec, writeCommand]
  simp only [decode, decodeCommand] at h
  split at h <;> rename_i hv <;> cases h <;> simp only [encode, HostWord.command.injEq] at he <;> rw [hv] <;>
    dsimp only
  · rw [execRestore, he]
  · rw [execSeek, he]
  · rw [execStep, he]
  · rw [execStepIn, he]
  · rw [execStepOut, he]
  · rw [execRdSec, he]
  · rw [execWrSec, he]
  · rw [execRdAddr, he]
  · rw [execForceInt, he]
  · rw [execRdTrk, he]
  · rw [execWrTrk, he]

/-- What the write of command byte `b` leaves alone, and when it changes the family or a head. -/
structure CommandCases (b : Byte) (s t : State) : Prop where
  cfg : t.cfg = s.cfg
  input : t.input = s.input
  trace : t.trace = s.trace
  now : t.ctl.now = s.ctl.now
  drive : t.ctl.drive = s.ctl.drive
  family : t.ctl.family ≠ s.ctl.family →
    (s.ctl.phase = .idle ∨ classify b = .forceInterrupt) ∧ familyOf (classify b) = some t.ctl.family
  drv : t.drv = s.drv ∨
    (isTypeOne (classify b) = true ∧ s.ctl.phase = .idle ∧ ∃ n, t.drv = (movePhys s.ctl.drive n s).drv)

theorem CommandCases.refl (b : Byte) (s : State) : CommandCases b s s :=
  ⟨rfl, rfl, rfl, rfl, rfl, fun h => absurd rfl h, .inl rfl⟩

theorem typeOneCommand_cases {b : Byte} {move : State → State} {s : State} (hm : ∀ u, MoveKeeps u (move u))
    (hv : isTypeOne (classify b) = true) : CommandCases b s (typeOneCommand b move s) := by
  unfold typeOneCommand whenIdle
  split
  · rename_i hp
    obtain ⟨⟨tr, dir, hc⟩, hcfg, hin, htr, n, hdrv⟩ := hm { acceptPrologue b .typeI s with
      ctl := { (acceptPrologue b .typeI s).ctl with stepRate := fieldR b } }
    refine ⟨hcfg, hin, htr, ?_, ?_, fun _ => ⟨.inl hp, ?_⟩, .inr ⟨hv, hp, n, hdrv⟩⟩ <;>
      simp only [typeOne, enterSearching_ctl, hc]
    · rfl
    · rfl
    · rw [familyOf_typeOne hv]; rfl
  · exact CommandCases.refl b s

theorem typeTwoThreeCommand_cases {b : Byte} {start : State → State} {s : State}
    (h : start = startRead ∨ start = startWrite) (hf : familyOf (classify b) = some .typeII_III) :
    CommandCases b s (typeTwoThreeCommand b start s) := by
  unfold typeTwoThreeCommand whenIdle
  split
  · rename_i hp
    obtain rfl | rfl := h
    · unfold startRead
      dsimp only
      split <;> exact ⟨rfl, rfl, rfl, rfl, rfl, fun _ => ⟨.inl hp, hf⟩, .inl rfl⟩
    · unfold startWrite
      dsimp only
      split
      · split <;> exact ⟨rfl, rfl, rfl, rfl, rfl, fun _ => ⟨.inl hp, hf⟩, .inl rfl⟩
      · exact ⟨rfl, rfl, rfl, rfl, rfl, fun _ => ⟨.inl hp, hf⟩, .inl rfl⟩
  · exact CommandCases.refl b s

/-- Every command byte. -/
theorem writeCommand_cases (b : Byte) (s : State) : CommandCases b s (writeCommand b s) := by
  unfold writeCommand
  split <;> rename_i hv
  · exact ⟨rfl, rfl, rfl, rfl, rfl, fun _ => ⟨.inr hv, by rw [hv]; rfl⟩, .inl rfl⟩
  · exact typeOneCommand_cases doRestore_keeps (by rw [hv]; rfl)
  · exact typeOneCommand_cases doSeek_keeps (by rw [hv]; rfl)
  · exact typeOneCommand_cases (doStep_keeps _) (by rw [hv]; rfl)
  · exact typeOneCommand_cases (doStepIn_keeps _) (by rw [hv]; rfl)
  · exact typeOneCommand_cases (doStepOut_keeps _) (by rw [hv]; rfl)
  · exact typeTwoThreeCommand_cases (.inl rfl) (by rw [hv]; rfl)
  · exact typeTwoThreeCommand_cases (.inr rfl) (by rw [hv]; rfl)
  · exact typeTwoThreeCommand_cases (.inl rfl) (by rw [hv]; rfl)
  · exact typeTwoThreeCommand_cases (.inl rfl) (by rw [hv]; rfl)
  · exact typeTwoThreeCommand_cases (.inr rfl) (by rw [hv]; rfl)
  · unfold unknownCommand whenIdle
    split
    · exact ⟨rfl, rfl, rfl, rfl, rfl, fun h => absurd rfl h, .inl rfl⟩
    · exact CommandCases.refl b s

/-! ### The data register -/

/-- What a consumption leaves alone. -/
theorem consumed_keeps (k : Transfer) (s : State) :
    (consumed k s).drv = s.drv ∧ (consumed k s).cfg = s.cfg ∧ (consumed k s).input = s.input ∧
      (consumed k s).trace = s.trace ∧ (consumed k s).ctl.family = s.ctl.family ∧
      (consumed k s).ctl.now = s.ctl.now ∧ (consumed k s).ctl.drive = s.ctl.drive := by
  unfold consumed
  dsimp only
  split <;> exact ⟨rfl, rfl, rfl, rfl, rfl, rfl, rfl⟩

/-- What a data-register read leaves alone. -/
theorem readDataEffect_keeps (s : State) :
    (readDataEffect s).drv = s.drv ∧ (readDataEffect s).cfg = s.cfg ∧ (readDataEffect s).input = s.input ∧
      (readDataEffect s).trace = s.trace ∧ (readDataEffect s).ctl.family = s.ctl.family ∧
      (readDataEffect s).ctl.now = s.ctl.now ∧ (readDataEffect s).ctl.drive = s.ctl.drive := by
  unfold readDataEffect
  split
  · exact consumed_keeps _ s
  · exact ⟨rfl, rfl, rfl, rfl, rfl, rfl, rfl⟩

/-- What a data-register write leaves alone, and the one slot it can store to (R238, R177). -/
structure DataWriteCases (b : Byte) (s t : State) : Prop where
  cfg : t.cfg = s.cfg
  family : t.ctl.family = s.ctl.family
  now : t.ctl.now = s.ctl.now
  drive : t.ctl.drive = s.ctl.drive
  drv : t.drv = s.drv ∨ ∃ k a, writeWaiting s = some k ∧ xferAddr k s.ctl.byteIndex s = some a ∧
    t.drv = s.drv.set s.ctl.drive (storedSlot s.selected a b)

theorem writeData_cases (b : Byte) (s : State) : DataWriteCases b s (writeData b s) := by
  unfold writeData
  dsimp only
  split
  · rename_i k hw
    unfold consumeWrite
    split
    · exact ⟨rfl, rfl, rfl, rfl, .inl rfl⟩
    · exact ⟨rfl, rfl, rfl, rfl, .inl rfl⟩
    · rename_i t ht
      obtain ⟨n, hn, -, -, rfl⟩ := imgWrite_ok.1 ht
      obtain ⟨h1, h2, -, -, h3, h4, h5⟩ := consumed_keeps k
        (State.setDrive { s with ctl := { s.ctl with DR := b } } s.ctl.drive (storedSlot s.selected n b))
      exact ⟨h2, h3, h4, h5, .inr ⟨k, n, hw, hn, h1⟩⟩
  · exact ⟨rfl, rfl, rfl, rfl, .inl rfl⟩

end Sys2Proof.Machine
end

