-- ==== Sys2Proof/Laws/HostStream.lean ====
section
/-! SUPPORT. All that one operation of the host can do, said once: `perform` inverted. -/

namespace Sys2Proof.Machine

/-- A bus word decodes to one of the ten register accesses. -/
theorem decode_bus_cases {w : BitVec 16} {i : Instr} (h : decode (.bus w) = .ok i) :
    ∃ d, i = .rdStatus d ∨ i = .wrCmd d ∨ i = .rdTrack d ∨ i = .wrTrack d ∨ i = .rdSector d ∨
      i = .wrSector d ∨ i = .rdData d ∨ i = .wrData d ∨ i = .rdSys d ∨ i = .wrSys d := by
  simp only [decode, decodeBus] at h
  split at h
  · cases h
  · split at h <;> cases h <;> exact ⟨busData w, by simp⟩

/-- A bus word that does not decode is refused. -/
theorem decode_bus_error {w : BitVec 16} {e : DecodeError} (h : decode (.bus w) = .error e) (s : State) :
    ∃ r, rejectWord e s = .refused r := by
  simp only [decode, decodeBus] at h
  split at h
  · cases h; exact ⟨_, rfl⟩
  · split at h <;> cases h
    exact ⟨_, rfl⟩

/-- The head of the selected drive moves in a reset pulse, and no drive changes otherwise. -/
theorem resetPulse_drv (s : State) : ∃ n, (resetPulse s).drv = (movePhys s.ctl.drive n s).drv := ⟨_, rfl⟩

/-- What an operation that goes on can have done to `s`, kind by kind. -/
inductive Performed (s : State) : HostOp → State → Prop
  /-- A command byte `b`, sent as a command or written to the command register. -/
  | command {op : HostOp} {b : Byte} {t : State}
      (sent : op = .word (.command b) ∨ ∃ w, op = .word w ∧ decode w = .ok (.wrCmd b))
      (cases : CommandCases b s t) : Performed s op t
  /-- Any other register access that is neither of the three below. -/
  | access {w : HostWord} {t : State} (cfg : t.cfg = s.cfg) (drv : t.drv = s.drv)
      (family : t.ctl.family = s.ctl.family) (now : t.ctl.now = s.ctl.now) : Performed s (.word w) t
  /-- A data-register write that stores. -/
  | store {w : HostWord} {v : Byte} {t : State} {k : Transfer} {a : Nat} (word : decode w = .ok (.wrData v))
      (waiting : writeWaiting s = some k) (addr : xferAddr k s.ctl.byteIndex s = some a) (cfg : t.cfg = s.cfg)
      (family : t.ctl.family = s.ctl.family) (now : t.ctl.now = s.ctl.now)
      (drv : t.drv = s.drv.set s.ctl.drive (storedSlot s.selected a v)) : Performed s (.word w) t
  /-- A system control write without a pulse. -/
  | select {w : HostWord} {v : Byte} (word : decode w = .ok (.wrSys v)) :
      Performed s (.word w) (sysSelect v s)
  /-- A system control write with one. -/
  | pulse {w : HostWord} {v : Byte} (word : decode w = .ok (.wrSys v)) (low : s.ctl.resetLine = false)
      (high : v.getLsbD 2 = true) : Performed s (.word w) (resetPulse (sysSelect v s))
  | tick {abs delta : Nat} {t : State} (ahead : s.ctl.now ≤ abs) (keeps : FiringKeeps (setNow abs s) t) :
      Performed s (.tick abs delta) t
  | insert {d : Fin 4} (b : Buffer) (ro : Bool) : Performed s (.insert d.val b ro) (insertDisk b ro d s)
  | eject {d : Fin 4} : Performed s (.eject d.val) (ejectDisk d s)
  | flush {d : Fin 4} : Performed s (.flush d.val) (flushDisk d s)
  | reset : Performed s .reset (systemReset s)

theorem withSlot_next {d : Nat} {f : Fin 4 → State} {t : State} (h : withSlot d f = .next t) :
    ∃ i : Fin 4, i.val = d ∧ t = f i := by
  unfold withSlot at h
  split at h <;> cases h
  exact ⟨_, rfl, rfl⟩

/-- Every operation that goes on. -/
theorem perform_cases {s t : State} {op : HostOp} (h : perform op s = .next t) : Performed s op t := by
  cases op with
  | word w =>
    cases w with
    | command b =>
      obtain ⟨i, hi, -⟩ := decode_command_total b
      simp only [perform, performWord, hi] at h
      rw [exec_command hi] at h
      cases h
      exact .command (.inl rfl) (writeCommand_cases b s)
    | bus w =>
      cases hd : decode (.bus w) with
      | error e =>
        obtain ⟨r, hr⟩ := decode_bus_error hd s
        simp only [perform, performWord, hd, hr] at h
        cases h
      | ok i =>
        simp only [perform, performWord, hd] at h
        obtain ⟨d, rfl | rfl | rfl | rfl | rfl | rfl | rfl | rfl | rfl | rfl⟩ := decode_bus_cases hd <;> cases h
        · exact .access rfl rfl rfl rfl
        · exact .command (.inr ⟨_, rfl, hd⟩) (writeCommand_cases d s)
        · exact .access rfl rfl rfl rfl
        · exact .access rfl rfl rfl rfl
        · exact .access rfl rfl rfl rfl
        · exact .access rfl rfl rfl rfl
        · obtain ⟨h1, h2, -, -, h3, h4, -⟩ := readDataEffect_keeps s
          exact .access h2 h1 h3 h4
        · obtain ⟨h1, h2, h3, -, h4 | ⟨k, a, h4, h5, h6⟩⟩ := writeData_cases d s
          · exact .access h1 h4 h2 h3
          · exact .store hd h4 h5 h1 h2 h3 h6
        · exact .access rfl rfl rfl rfl
        · unfold writeSys
          dsimp only
          split
          · rename_i hr
            exact .pulse hd hr.1 hr.2
          · exact .select hd
  | tick abs delta =>
    simp only [perform, Machine.tick] at h
    split at h
    · cases h
    · split at h
      · rename_i u hu
        cases h
        exact .tick (by omega) (fireDue_keeps hu)
      · cases h
  | insert d b ro =>
    obtain ⟨i, rfl, rfl⟩ := withSlot_next (f := fun i => insertDisk b ro i s) h
    exact .insert b ro
  | eject d =>
    obtain ⟨i, rfl, rfl⟩ := withSlot_next (f := fun i => ejectDisk i s) h
    exact .eject
  | flush d =>
    obtain ⟨i, rfl, rfl⟩ := withSlot_next (f := fun i => flushDisk i s) h
    exact .flush
  | reset => cases h; exact .reset

end Sys2Proof.Machine
end

