-- ==== Sys2Proof/Laws/PerInstr.lean ====
section
/-! SUPPORT. Statements made per instruction. `TableRow`: the word the encoder writes is one of its opcode-table
row, whatever its operands. -/

namespace Sys2Proof.Laws.TableRow

/-- A row of spec/opcode_table.json. -/
inductive Row where
  | command (mask value : Byte)
  | bus (mask value : BitVec 16)

/-- The row of an instruction, its `mask` and `match` copied from the table. -/
def row (i : Instr) : Row :=
  match i with
  | .restore .. => .command 0xF0#8 0x00#8
  | .seek .. => .command 0xF0#8 0x10#8
  | .step .. => .command 0xE0#8 0x20#8
  | .stepIn .. => .command 0xE0#8 0x40#8
  | .stepOut .. => .command 0xE0#8 0x60#8
  | .rdSec .. => .command 0xE0#8 0x80#8
  | .wrSec .. => .command 0xE0#8 0xA0#8
  | .rdAddr .. => .command 0xF0#8 0xC0#8
  | .forceInt .. => .command 0xF0#8 0xD0#8
  | .rdTrk .. => .command 0xF0#8 0xE0#8
  | .wrTrk .. => .command 0xF0#8 0xF0#8
  | .rdStatus .. => .bus 0xF00#16 0x000#16
  | .wrCmd .. => .bus 0xF00#16 0x800#16
  | .rdTrack .. => .bus 0xF00#16 0x100#16
  | .wrTrack .. => .bus 0xF00#16 0x900#16
  | .rdSector .. => .bus 0xF00#16 0x200#16
  | .wrSector .. => .bus 0xF00#16 0xA00#16
  | .rdData .. => .bus 0xF00#16 0x300#16
  | .wrData .. => .bus 0xF00#16 0xB00#16
  | .rdSys .. => .bus 0xF00#16 0x400#16
  | .wrSys .. => .bus 0xF00#16 0xC00#16

/-- A raw word matches a row. -/
def hits (w : HostWord) (r : Row) : Bool :=
  match w, r with
  | .command b, .command mask value => b &&& mask == value
  | .bus v, .bus mask value => v &&& mask == value
  | .command _, .bus _ _ => false
  | .bus _, .command _ _ => false

/-- The encoded word of `i` matches `i`'s row. -/
def Statement (i : Instr) : Prop := hits (encode i) (row i) = true

theorem restore (h V : Bool) (r : BitVec 2) : Statement (.restore h V r) := by
  revert h V r; unfold Statement; decide

theorem seek (h V : Bool) (r : BitVec 2) : Statement (.seek h V r) := by
  revert h V r; unfold Statement; decide

theorem step (u h V : Bool) (r : BitVec 2) : Statement (.step u h V r) := by
  revert u h V r; unfold Statement; decide

theorem stepIn (u h V : Bool) (r : BitVec 2) : Statement (.stepIn u h V r) := by
  revert u h V r; unfold Statement; decide

theorem stepOut (u h V : Bool) (r : BitVec 2) : Statement (.stepOut u h V r) := by
  revert u h V r; unfold Statement; decide

theorem rdSec (m S E C x : Bool) : Statement (.rdSec m S E C x) := by
  revert m S E C x; unfold Statement; decide

theorem wrSec (m S E C a0 : Bool) : Statement (.wrSec m S E C a0) := by
  revert m S E C a0; unfold Statement; decide

theorem rdAddr (x3 E x1 x0 : Bool) : Statement (.rdAddr x3 E x1 x0) := by
  revert x3 E x1 x0; unfold Statement; decide

theorem forceInt (I : BitVec 4) : Statement (.forceInt I) := by
  revert I; unfold Statement; decide

theorem rdTrk (x3 E x1 x0 : Bool) : Statement (.rdTrk x3 E x1 x0) := by
  revert x3 E x1 x0; unfold Statement; decide

theorem wrTrk (x3 E x1 x0 : Bool) : Statement (.wrTrk x3 E x1 x0) := by
  revert x3 E x1 x0; unfold Statement; decide

/-- The data byte of a bus word lies outside the mask of its row. -/
theorem busWord_masked (rw : Bool) (sel : BitVec 3) (d : Byte) :
    busWord rw sel d &&& 0xF00#16 = busWord rw sel 0#8 := by
  apply BitVec.eq_of_getLsbD_eq
  intro i hi
  simp only [busWord, BitVec.getLsbD_and, BitVec.getLsbD_append, BitVec.getLsbD_zero]
  interval_cases i <;> simp

theorem bus_hits (rw : Bool) (sel : BitVec 3) (d : Byte) (v : BitVec 16) (h : busWord rw sel 0#8 = v) :
    hits (.bus (busWord rw sel d)) (.bus 0xF00#16 v) = true := by
  simp [hits, busWord_masked, h]

theorem rdStatus (z : Byte) : Statement (.rdStatus z) := bus_hits false 0#3 z _ rfl

theorem wrCmd (d : Byte) : Statement (.wrCmd d) := bus_hits true 0#3 d _ rfl

theorem rdTrack (z : Byte) : Statement (.rdTrack z) := bus_hits false 1#3 z _ rfl

theorem wrTrack (d : Byte) : Statement (.wrTrack d) := bus_hits true 1#3 d _ rfl

theorem rdSector (z : Byte) : Statement (.rdSector z) := bus_hits false 2#3 z _ rfl

theorem wrSector (d : Byte) : Statement (.wrSector d) := bus_hits true 2#3 d _ rfl

theorem rdData (z : Byte) : Statement (.rdData z) := bus_hits false 3#3 z _ rfl

theorem wrData (d : Byte) : Statement (.wrData d) := bus_hits true 3#3 d _ rfl

theorem rdSys (z : Byte) : Statement (.rdSys z) := bus_hits false 4#3 z _ rfl

theorem wrSys (d : Byte) : Statement (.wrSys d) := bus_hits true 4#3 d _ rfl

end Sys2Proof.Laws.TableRow
end

