-- ==== Sys2Proof/Machine/TraceSyntax.lean ====
section
/-! DEFINITION. How the spec writes host programs down: bus addresses (R62), operations relative to the clock
(R95), command mnemonics (R96), pseudo-instructions (R97), and a program's run as a fold (R68). `step` rests on
none of it. -/

namespace Sys2Proof.Machine

/-! ## Bus addresses -/

/-- `PORTMAP` (R62), OPEN: the bus addresses of the registers with select codes 0 to 4. "No rule depends on
it": it is an argument here and stands in no state. -/
structure PortMap where
  command : Nat
  track : Nat
  sector : Nat
  data : Nat
  sys : Nat
deriving DecidableEq, Repr

/-- The mapping used by Beta-Disk interfaces (R62), which the spec takes from general knowledge (UNVERIFIED, log entry 8). -/
def PortMap.betaDisk : PortMap := ⟨0x1F, 0x3F, 0x5F, 0x7F, 0xFF⟩

/-- The select code at a bus address, if a register answers there (R62). -/
def PortMap.select (p : PortMap) (address : Nat) : Option (BitVec 3) :=
  if address = p.command then some 0#3
  else if address = p.track then some 1#3
  else if address = p.sector then some 2#3
  else if address = p.data then some 3#3
  else if address = p.sys then some 4#3
  else none

/-- The register access at a bus address, a write of the byte or a read. -/
def PortMap.access (p : PortMap) (address : Nat) (byte : Option Byte) : Option HostOp :=
  match p.select address, byte with
  | some sel, some b => some (.word (.bus (busWord true sel b)))
  | some sel, none => some (.word (.bus (busWord false sel 0#8)))
  | none, _ => none

/-! ## Operations -/

/-- The bus word of a register access (R81, R95). -/
def issueOf (i : Instr) : HostOp := .word (encode i)

/-- `TICK +n` in a state: `now <- now + n`, delta `n` (R95). -/
def tickBy (n : Nat) (s : State) : HostOp := .tick (s.ctl.now + n) n

/-- `TICK @a` in a state: `now <- a`, delta `a - now` (R95). -/
def tickTo (a : Nat) (s : State) : HostOp := .tick a (a - s.ctl.now)

/-- The fold of the per-operation rules over a sequence (R68). -/
def run (ops : List HostOp) (s : State) : Host.Outcome State Fault Refusal :=
  match ops with
  | [] => .next s
  | op :: rest =>
    match perform op s with
    | .next t => run rest t
    | .fault f => .fault f
    | .refused r => .refused r

/-! ## Mnemonics and pseudo-instructions -/

/-- The command byte of a mnemonic, every ignored bit clear; `u` is the suffix `.U` of the three steps (R96). -/
def mnemonicByte (v : Variant) (u : Bool) : Option Byte :=
  match v with
  | .restore => some (restoreByte false false 0#2)
  | .seek => some (seekByte false false 0#2)
  | .step => some (stepByte u false false 0#2)
  | .stepIn => some (stepInByte u false false 0#2)
  | .stepOut => some (stepOutByte u false false 0#2)
  | .readSector => some (rdSecByte false false false false false)
  | .writeSector => some (wrSecByte false false false false false)
  | .readAddress => some (rdAddrByte false false false false)
  | .forceInterrupt => some (forceIntByte 0#4)
  | .readTrack => some (rdTrkByte false false false false)
  | .writeTrack => some (wrTrkByte false false false false)
  | .unknown => none

/-- A system control byte from its fields (R90): bits 7 to 5 clear, the side bit inverted. -/
def sysByte (drive : Fin 4) (side : Fin 2) (motor line : Bool) : Byte :=
  0#3 ++ BitVec.ofBool (side == 0) ++ BitVec.ofBool motor ++ BitVec.ofBool line ++ BitVec.ofNat 2 drive.val

/-- `SELECT d, s, m` (R97): the reset bit held at 1. -/
def selectOps (drive : Fin 4) (side : Fin 2) (motor : Bool) : List HostOp :=
  [issueOf (.wrSys (sysByte drive side motor true))]

/-- `PULSE d, s, m` (R97): the reset bit 0, then 1. -/
def pulseOps (drive : Fin 4) (side : Fin 2) (motor : Bool) : List HostOp :=
  [issueOf (.wrSys (sysByte drive side motor false)), issueOf (.wrSys (sysByte drive side motor true))]

/-- `SEEKTO t` (R97). -/
def seekToOps (t : Byte) : List HostOp := [issueOf (.wrData t), issueOf (.wrCmd 0x10#8)]

/-- The loop of `WAITINT` and `WAITDRQ` (R97), at most `fuel` times round: `TICK +1`, then `RD SYS`, until the
byte read has a bit of `mask`. Without that bit after `fuel` rounds it goes on with the state it has reached. -/
def waitFor (mask : Byte) (fuel : Nat) (s : State) : Host.Outcome State Fault Refusal :=
  match fuel with
  | 0 => .next s
  | n + 1 =>
    match run [tickBy 1 s, issueOf (.rdSys 0#8)] s with
    | .next t => if readSys t &&& mask = 0#8 then waitFor mask n t else .next t
    | .fault f => .fault f
    | .refused r => .refused r

/-- `WAITINT` (R97): until bit 7 is 1. -/
def waitInt (fuel : Nat) (s : State) : Host.Outcome State Fault Refusal := waitFor 0x80#8 fuel s

/-- `WAITDRQ` (R97): until bit 6 or bit 7 is 1. -/
def waitDrq (fuel : Nat) (s : State) : Host.Outcome State Fault Refusal := waitFor 0xC0#8 fuel s

end Sys2Proof.Machine
end

