-- ==== Sys2Proof/Tests/Slice0.lean ====
section
/-! SUPPORT. Tests of single steps, their expected values copied from spec/95_test_vectors.md (the section stands in
each docstring), and for each statement with hypotheses a state and operands that meet them. -/

open Sys2Proof Sys2Proof.Machine

namespace Sys2Proof.Tests

/-! ## Words written out from the encodings of the spec -/

/-- R83, the Type I shapes: `0000 h V r`, `0001 h V r`, `001 u h V r`, `010 u h V r`, `011 u h V r`. -/
theorem test_decode_type_one :
    decodeTableWord 8 0b0000_1001 = some (.restore true false 1#2) ∧
    decodeTableWord 8 0b0001_0110 = some (.seek false true 2#2) ∧
    decodeTableWord 8 0b001_1_1000 = some (.step true true false 0#2) ∧
    decodeTableWord 8 0b010_0_0111 = some (.stepIn false false true 3#2) ∧
    decodeTableWord 8 0b011_1_0010 = some (.stepOut true false false 2#2) := by decide

/-- R84: `100 m S E C x`, `101 m S E C a0`. -/
theorem test_decode_type_two :
    decodeTableWord 8 0b100_1_0_1_0_0 = some (.rdSec true false true false false) ∧
    decodeTableWord 8 0b101_0_1_0_1_1 = some (.wrSec false true false true true) := by decide

/-- R85: `1100 x E x x`, `1110 x E x x`, `1111 x E x x`. -/
theorem test_decode_type_three :
    decodeTableWord 8 0b1100_0_1_0_0 = some (.rdAddr false true false false) ∧
    decodeTableWord 8 0b1110_1_0_0_1 = some (.rdTrk true false false true) ∧
    decodeTableWord 8 0b1111_0_1_1_0 = some (.wrTrk false true true false) := by decide

/-- R86: `1101 I3 I2 I1 I0`. -/
theorem test_decode_type_four : decodeTableWord 8 0b1101_1010 = some (.forceInt 0b1010#4) := by decide

/-- R81: `rw sel data`, 1 + 3 + 8 bits, the five reads. -/
theorem test_decode_reads :
    decodeTableWord 16 0b0_000_00000000 = some (.rdStatus 0x00#8) ∧
    decodeTableWord 16 0b0_001_00000000 = some (.rdTrack 0x00#8) ∧
    decodeTableWord 16 0b0_010_00000000 = some (.rdSector 0x00#8) ∧
    decodeTableWord 16 0b0_011_00000000 = some (.rdData 0x00#8) ∧
    decodeTableWord 16 0b0_100_00000000 = some (.rdSys 0x00#8) := by decide

/-- R81: the five writes. -/
theorem test_decode_writes :
    decodeTableWord 16 0b1_000_10000000 = some (.wrCmd 0x80#8) ∧
    decodeTableWord 16 0b1_001_01010000 = some (.wrTrack 0x50#8) ∧
    decodeTableWord 16 0b1_010_00001001 = some (.wrSector 0x09#8) ∧
    decodeTableWord 16 0b1_011_11111111 = some (.wrData 0xFF#8) ∧
    decodeTableWord 16 0b1_100_00011100 = some (.wrSys 0x1C#8) := by decide

/-- R81: `sel` = 5, 6, 7 name no register; the container's bits above 12 are 0 (log entry 4). -/
theorem test_decode_refuses :
    decode (.bus 0x500#16) = .error (.noSuchRegister 5) ∧ decode (.bus 0xEFF#16) = .error (.noSuchRegister 6) ∧
    decode (.bus 0x700#16) = .error (.noSuchRegister 7) ∧ decode (.bus 0x1000#16) = .error .notABusWord ∧
    decode (.bus 0x8000#16) = .error .notABusWord := by decide

/-- Section 2.1: the table and the census of the 256 bytes. -/
theorem test_classifier_census :
    let count := fun v => ((List.range 256).filter fun n => classify (BitVec.ofNat 8 n) = v).length
    count .restore = 16 ∧ count .seek = 16 ∧ count .step = 32 ∧ count .stepIn = 32 ∧ count .stepOut = 32 ∧
    count .readSector = 32 ∧ count .writeSector = 32 ∧ count .readAddress = 16 ∧ count .readTrack = 16 ∧
    count .writeTrack = 16 ∧ count .forceInterrupt = 16 ∧ count .unknown = 0 := by decide

/-- R81: a read carries the data byte 0; each ill-formed read is refused, and the word still decodes (R98). -/
theorem test_wellFormed_smoke :
    WellFormed (.rdStatus 0x01#8) = false ∧ WellFormed (.rdTrack 0x80#8) = false ∧
    WellFormed (.rdSector 0xFF#8) = false ∧ WellFormed (.rdData 0x10#8) = false ∧
    WellFormed (.rdSys 0x02#8) = false ∧ WellFormed (.rdStatus 0x00#8) = true ∧
    decodeTableWord 16 0x001 = some (.rdStatus 0x01#8) := by decide

/-! ## Small states -/

/-- A disk with the bytes of the spec's test image at a few offsets, the head on track `p`. -/
def disk (ro : Bool) (p : Nat) : Drive :=
  ⟨[(0, 0x01#8), (2048, 0x19#8), (2049, 0x20#8), (4096, 0x31#8), (8192, 0x61#8), (8448, 0x64#8)],
    true, ro, false, p⟩

/-- Controller `c` with `x` in slot 0. -/
def machine (c : Controller) (x : Drive) : State :=
  ⟨c, ⟨x, Drive.powerOn, Drive.powerOn, Drive.powerOn⟩, referenceConfig, [], []⟩

/-- The controller after `BOOT` (spec/95_test_vectors.md). -/
def booted : Controller :=
  { Controller.powerOn with CR := 0x03#8, motorOn := true, resetLine := true, stepRate := 3#2, now := 1000 }

/-- Command `b` accepted after `BOOT`, its search running. -/
def searching (b : Byte) : Controller :=
  { booted with CR := b, phase := .searching, family := .typeII_III, deadline := some 11000 }

/-- Command `b` with byte `i` asked for (`q` = true) or taken. -/
def moving (b : Byte) (i : Nat) (q : Bool) : Controller :=
  { booted with
    CR := b, phase := .transferring, family := .typeII_III, byteIndex := i, drq := q, now := 11000
    deadline := some 11100 }

/-- A Type I command settling. -/
def settling : Controller := { booted with CR := 0x10#8, phase := .searching, deadline := some 2000 }

/-- The state an outcome goes on with. -/
def result (o : Host.Outcome State Fault Refusal) : Option State :=
  match o with
  | .next t => some t
  | .fault _ | .refused _ => none

/-- Register, head and direction: what section 2.2 lists. -/
def heading (t : State) : Byte × Nat × StepDir := (t.ctl.TR, t.selected.physicalTrack, t.ctl.stepDir)

/-- "SYS" and "ST" of spec/95_test_vectors.md. -/
def sysAndStatus (t : State) : Byte × Byte := (readSys t &&& 0xC0#8, status t)

/-- An idle controller with register `tr`, data register `dr` and direction `dir`. -/
def positioned (tr dr : Byte) (dir : StepDir) : Controller :=
  { Controller.powerOn with TR := tr, DR := dr, stepDir := dir }

/-! ## One step of each instruction -/

/-- Section 2.2: Restore with 0F, from anywhere. -/
theorem test_restore :
    (result (exec (.restore true true 3#2) (machine (positioned 9#8 0#8 .In) (disk false 5)))).map
      (fun t => (heading t, t.ctl.stepRate, t.ctl.deadline)) = some ((0#8, 0, .Out), 3#2, some 1000) := by decide

/-- Section 2.2, seek, sixth row: 3, 70, 20, Out to 20, 79, In. -/
theorem test_seek_clamps_the_head :
    (result (exec (.seek false false 0#2) (machine (positioned 3#8 20#8 .Out) (disk false 70)))).map heading =
      some (20#8, 79, .In) := by decide

/-- Section 2.2, seek, third row: 10, 0, 5, In to 5, 0, Out. -/
theorem test_seek_outward :
    (result (exec (.seek false false 0#2) (machine (positioned 10#8 5#8 .In) (disk false 0)))).map heading =
      some (5#8, 0, .Out) := by decide

/-- Section 2.2: 30, Step u=1, 5, 5, Out to 4, 4, Out. -/
theorem test_step_updates :
    (result (exec (.step true false false 0#2) (machine (positioned 5#8 0#8 .Out) (disk false 5)))).map heading =
      some (4#8, 4, .Out) := by decide

/-- Section 2.2: 20, Step u=0, 5, 5, In to 5, 6, In. -/
theorem test_step_without_update :
    (result (exec (.step false false false 0#2) (machine (positioned 5#8 0#8 .In) (disk false 5)))).map heading =
      some (5#8, 6, .In) := by decide

/-- Section 2.2: 50, 255, 79, In to 0, 79, In: the register wraps, the head is clamped. -/
theorem test_stepIn_wraps :
    (result (exec (.stepIn true false false 0#2) (machine (positioned 255#8 0#8 .In) (disk false 79)))).map
      heading = some (0#8, 79, .In) := by decide

/-- Section 2.2: 70, 3, 0, In to 2, 0, Out: the register still counts at the stop. -/
theorem test_stepOut_counts_at_the_stop :
    (result (exec (.stepOut true false false 0#2) (machine (positioned 3#8 0#8 .In) (disk false 0)))).map
      heading = some (2#8, 0, .Out) := by decide

/-- Section 2.2: 70, 0, 0, In to 0, 0, Out: both hold at 0. -/
theorem test_stepOut_holds_at_zero :
    (result (exec (.stepOut true false false 0#2) (machine (positioned 0#8 0#8 .In) (disk false 0)))).map
      heading = some (0#8, 0, .Out) := by decide

/-- Section 2.3, search: ST 01, SYS 00, deadline 11000. -/
theorem test_rdSec_searches :
    (result (exec (.rdSec false false false false false) (machine booted (disk false 0)))).map
      (fun t => (sysAndStatus t, t.ctl.deadline)) = some ((0x00#8, 0x01#8), some 11000) := by decide

/-- Section 2.3, not ready: SYS 80, ST 80. -/
theorem test_rdSec_not_ready :
    (result (exec (.rdSec false false false false false)
      (machine { booted with motorOn := false } (disk false 0)))).map sysAndStatus =
      some (0x80#8, 0x80#8) := by decide

/-- Section 2.3, read-only: SYS 80, ST 40. -/
theorem test_wrSec_read_only :
    (result (exec (.wrSec false false false false false) (machine booted (disk true 0)))).map sysAndStatus =
      some (0x80#8, 0x40#8) := by decide

/-- Section 2.11: NotReady wins over WriteProtect, SYS 80, ST 80. -/
theorem test_wrSec_not_ready_first :
    (result (exec (.wrSec false false false false false)
      (machine { booted with motorOn := false } (disk true 0)))).map sysAndStatus =
      some (0x80#8, 0x80#8) := by decide

/-- Program P5: `WR CMD, C0` then `RD STATUS -> 01`. -/
theorem test_rdAddr_searches :
    (result (exec (.rdAddr false false false false) (machine booted (disk false 0)))).map sysAndStatus =
      some (0x00#8, 0x01#8) := by decide

/-- Section 2.5, and program P7: D0 in mid-transfer, SYS 80, ST 24. -/
theorem test_forceInt_in_transfer :
    (result (exec (.forceInt 0#4) (machine (moving 0x80#8 3 true) (disk false 0)))).map sysAndStatus =
      some (0x80#8, 0x24#8) := by decide

/-- Section 2.4: Read-Track is not stopped by read-only media. -/
theorem test_rdTrk_searches :
    (result (exec (.rdTrk false false false false) (machine booted (disk true 0)))).map sysAndStatus =
      some (0x00#8, 0x01#8) := by decide

/-- Section 2.4: Write-Track, read-only, SYS 80, ST 40. -/
theorem test_wrTrk_read_only :
    (result (exec (.wrTrk false false false false) (machine booted (disk true 0)))).map sysAndStatus =
      some (0x80#8, 0x40#8) := by decide

/-- Section 2.6, read side effect: SYS 40 stays, ST 03 returned. -/
theorem test_rdStatus_keeps_drq :
    (result (exec (.rdStatus 0#8) (machine (moving 0x80#8 0 true) (disk false 0)))).map
      (fun t => (t.trace, readSys t)) = some ([.read 0x03#8], 0x40#8) := by decide

/-- Program P1: `RD STATUS -> A4` clears INTRQ. -/
theorem test_rdStatus_clears_intrq :
    (result (exec (.rdStatus 0#8) (machine { booted with intrq := true } Drive.powerOn))).map
      (fun t => (t.trace, readSys t)) = some ([.read 0xA4#8], 0x00#8) := by decide

/-- Section 2.1, acceptance: `WR CMD, 00` while Busy leaves everything. -/
theorem test_wrCmd_while_busy :
    result (exec (.wrCmd 0x00#8) (machine settling (disk false 1))) = some (machine settling (disk false 1)) := by
  decide

/-- Section 2.2: `WR CMD, 5B`, 7, 7, Out to 8, 8, In, `stepRate` 3. -/
theorem test_wrCmd_stepIn :
    (result (exec (.wrCmd 0x5B#8) (machine (positioned 7#8 0#8 .Out) (disk false 7)))).map
      (fun t => (heading t, t.ctl.stepRate)) = some ((8#8, 8, .In), 3#2) := by decide

/-- Section 2.10: `RD TRACK`. -/
theorem test_rdTrack :
    (result (exec (.rdTrack 0#8) (machine (positioned 0x2A#8 0#8 .In) (disk false 0)))).map (·.trace) =
      some [.read 0x2A#8] := by decide

/-- Section 2.10: `WR TRACK, 2A` while Busy, `P` unchanged. -/
theorem test_wrTrack_while_busy :
    (result (exec (.wrTrack 0x2A#8) (machine settling (disk false 1)))).map heading =
      some (0x2A#8, 1, .Out) := by decide

/-- Section 2.10: `RD SECTOR`. -/
theorem test_rdSector :
    (result (exec (.rdSector 0#8) (machine booted (disk false 0)))).map (·.trace) = some [.read 0x01#8] := by
  decide

/-- R236: any value is stored. -/
theorem test_wrSector :
    (result (exec (.wrSector 0xFF#8) (machine booted (disk false 0)))).map (·.ctl.SR) = some 0xFF#8 := by decide

/-- Section 2.3, consume: 19 returned, SYS 00, ST 01, `byteIndex` 1, deadline `now` + 100. -/
theorem test_rdData_consumes :
    (result (exec (.rdData 0#8) (machine { moving 0x80#8 0 true with DR := 0x19#8 } (disk false 0)))).map
      (fun t => (t.trace, sysAndStatus t, t.ctl.byteIndex, t.ctl.deadline)) =
      some ([.read 0x19#8], (0x00#8, 0x01#8), 1, some 11100) := by decide

/-- Program P5: the sixth byte completes a Read-Address, SYS 80, ST 00, `SR` the track. -/
theorem test_rdData_read_address_quirk :
    (result (exec (.rdData 0#8)
      (machine { moving 0xC0#8 5 true with idBuf := ⟨5#8, 0#8, 1#8, 1#8, 0x46#8, 0x49#8⟩ } (disk false 0)))).map
      (fun t => (sysAndStatus t, t.ctl.SR)) = some ((0x80#8, 0x00#8), 5#8) := by decide

/-- Section 2.3, write consume: image[8448] = FF, dirty, SYS 00, `byteIndex` 1, deadline 11100. -/
theorem test_wrData_stores :
    (result (exec (.wrData 0xFF#8)
      (machine { moving 0xA0#8 0 true with TR := 1#8, SR := 2#8 } (disk false 0)))).map
      (fun t => (t.imageByte 0 8448, t.selected.dirty, readSys t, t.ctl.byteIndex, t.ctl.deadline)) =
      some (0xFF#8, true, 0x00#8, 1, some 11100) := by decide

/-- Section 2.3, wrong direction: `DR` 55, DRQ still set, `byteIndex` 0. -/
theorem test_wrData_wrong_direction :
    (result (exec (.wrData 0x55#8) (machine (moving 0x80#8 0 true) (disk false 0)))).map
      (fun t => (t.ctl.DR, t.ctl.drq, t.ctl.byteIndex)) = some (0x55#8, true, 0) := by decide

/-- Section 2.10: `RD SYS` with SYS 80 keeps it. -/
theorem test_rdSys :
    (result (exec (.rdSys 0#8) (machine { booted with intrq := true } (disk false 0)))).map
      (fun t => (t.trace, readSys t)) = some ([.read 0x80#8], 0x80#8) := by decide

/-- Section 2.7: E3 decodes to drive 3, side 1, motor off, line 0; FC to 0, 0, on, 1 (no pulse: the bit was 1). -/
theorem test_wrSys_decodes :
    let sel := fun (t : State) => (t.ctl.drive, t.ctl.side, t.ctl.motorOn, t.ctl.resetLine)
    (result (exec (.wrSys 0xE3#8) (machine booted (disk false 0)))).map sel = some (3, 1, false, false) ∧
    (result (exec (.wrSys 0xFC#8) (machine booted (disk false 0)))).map sel = some (0, 0, true, true) := by decide

/-- Section 2.7: from power-on a first write of 0C is a pulse: `TR` 0, Searching, deadline 1000, `CR` 03, side 1. -/
theorem test_wrSys_pulse :
    (result (exec (.wrSys 0x0C#8) State.reset)).map
      (fun t => (t.ctl.CR, t.ctl.TR, t.ctl.phase, t.ctl.deadline, t.ctl.side)) =
      some (0x03#8, 0x00#8, .searching, some 1000, 1) := by decide

/-! ## Operations without a table row -/

/-- Section 2.3, first byte: `TICK @11000` gives SYS 40, ST 03, `DR` 19, deadline 11100. -/
theorem test_tick_presents_the_first_byte :
    (result (perform (.tick 11000 10000) (machine { searching 0x80#8 with SR := 9#8 } (disk false 0)))).map
      (fun t => (sysAndStatus t, t.ctl.DR, t.ctl.byteIndex, t.ctl.deadline)) =
      some ((0x40#8, 0x03#8), 0x19#8, 0, some 11100) := by decide

/-- Section 2.3, late: ST 07, `DR` the next byte, `byteIndex` + 1, deadline + 100. -/
theorem test_tick_loses_a_byte :
    (result (perform (.tick 11100 100)
      (machine { moving 0x80#8 0 true with SR := 9#8, DR := 0x19#8 } (disk false 0)))).map
      (fun t => (sysAndStatus t, t.ctl.DR, t.ctl.byteIndex, t.ctl.deadline)) =
      some ((0x40#8, 0x07#8), 0x20#8, 1, some 11200) := by decide

/-- Section 2.3, sector 0: SYS 80, ST 10, `DR` unchanged. -/
theorem test_tick_record_not_found :
    (result (perform (.tick 11000 10000) (machine { searching 0x80#8 with SR := 0#8 } (disk false 0)))).map
      (fun t => (sysAndStatus t, t.ctl.DR, t.ctl.phase)) = some ((0x80#8, 0x10#8), 0x00#8, .idle) := by decide

/-- Section 2.4: Read-Track of track 1 presents 61 = `IMG[8192]` first. -/
theorem test_tick_read_track :
    (result (perform (.tick 11000 10000) (machine { searching 0xE0#8 with TR := 1#8 } (disk false 0)))).map
      (fun t => t.ctl.DR) = some 0x61#8 := by decide

/-- Section 2.9: a Restore's settle ends at its deadline and not before. -/
theorem test_tick_settle :
    (result (perform (.tick 1999 999) (machine settling (disk false 0)))).map sysAndStatus =
      some (0x00#8, 0x25#8) ∧
    (result (perform (.tick 2000 1000) (machine settling (disk false 0)))).map sysAndStatus =
      some (0x80#8, 0x24#8) := by decide

/-- Section 2.8: `Lin` and `TrackLin`. -/
theorem test_lin :
    lin 39 1 16 0 = some 327424 ∧ lin 79 1 16 255 = some 655359 ∧ lin 0 0 0 0 = none ∧ lin 0 0 17 0 = none ∧
    lin 80 0 1 0 = none ∧ lin 0 0 1 256 = none ∧ trackLin 79 1 4095 = some 655359 ∧ trackLin 80 0 0 = none := by
  decide

set_option maxRecDepth 4000 in
/-- R152: the running value after the three `A1` bytes. -/
theorem test_crc_after_the_sync_marks :
    [0xA1#8, 0xA1#8, 0xA1#8].foldl crcByte 0xFFFF#16 = 0xCDB4#16 := by decide

/-- Section 2.8: 655359 bytes are a failure. -/
theorem test_insert_wrong_size :
    (result (perform (.insert 0 ⟨655359, []⟩ false) State.reset)).map
      (fun t => (t.trace, t.selected.hasDisk)) = some ([.inserted 0 false], false) := by decide

/-- Section 2.10: `RESET` in mid-transfer keeps `now` and the disk. -/
theorem test_reset :
    (result (perform .reset (machine { moving 0x80#8 3 true with now := 12050 } (disk false 7)))).map
      (fun t => (t.ctl.SR, t.ctl.now, t.ctl.motorOn, t.selected.physicalTrack, t.selected.hasDisk,
        readSys t)) = some (0x01#8, 12050, false, 7, true, 0x00#8) := by decide

/-- The host's first word runs as the first step after reset: `RD STATUS -> 84` (program P1). -/
theorem test_first_step :
    (result (step (State.reset.withFetchWord 16 0x000))).map (·.trace) = some [.read 0x84#8] := by decide

/-! ## The spec's way of writing programs down -/

/-- R96: the bytes of the mnemonics. -/
theorem test_mnemonic_bytes :
    mnemonicByte .restore false = some 0x00#8 ∧ mnemonicByte .step true = some 0x30#8 ∧
    mnemonicByte .stepIn false = some 0x40#8 ∧ mnemonicByte .stepOut true = some 0x70#8 ∧
    mnemonicByte .writeSector false = some 0xA0#8 ∧ mnemonicByte .forceInterrupt false = some 0xD0#8 ∧
    mnemonicByte .writeTrack false = some 0xF0#8 := by decide

/-- R97: `v = d + 4 + 8*m + 16*(1-s)`; the prologue's `C18` and `C1C` are `PULSE 0, 0, on`. -/
theorem test_pseudo_instructions :
    pulseOps 0 0 true = [.word (.bus 0xC18#16), .word (.bus 0xC1C#16)] ∧
    selectOps 1 1 true = [.word (.bus 0xC0D#16)] ∧
    seekToOps 5#8 = [.word (.bus 0xB05#16), .word (.bus 0x810#16)] := by decide

/-- R62: port 0x7F is the data register, port 0xFF the system control register. -/
theorem test_port_map :
    PortMap.betaDisk.access 0x7F none = some (.word (.bus 0x300#16)) ∧
    PortMap.betaDisk.access 0xFF (some 0x1C#8) = some (.word (.bus 0xC1C#16)) ∧
    PortMap.betaDisk.access 0x20 none = none := by decide

/-! ## States that meet the invariants -/

theorem disk_inv (ro : Bool) {p : Nat} (hp : p < 80) : SlotInv (disk ro p) := ⟨hp, rfl, by simp [disk]⟩

theorem powerOn_slot : SlotInv Drive.powerOn := ⟨by decide, rfl, fun _ => ⟨rfl, rfl⟩⟩

theorem machine_inv {c : Controller} {x : Drive} (hc : CtlInv c) (ha : deadlineAhead c) (hx : SlotInv x) :
    Inv (machine c x) := by
  refine ⟨show referenceConfig.valid by decide, hc, ha, fun d => ?_⟩
  fin_cases d
  exacts [hx, powerOn_slot, powerOn_slot, powerOn_slot]

theorem booted_inv (ro : Bool) : Inv (machine booted (disk ro 0)) :=
  machine_inv (CtlInv.ofIdle rfl rfl rfl fun _ => rfl) (by simp [deadlineAhead, booted, Controller.powerOn])
    (disk_inv ro (by decide))

theorem searching_inv {b : Byte} {k : Transfer} (h : transferOf (classify b) = some k) :
    Inv (machine (searching b) (disk false 0)) :=
  machine_inv (CtlInv.ofSearching rfl rfl rfl h rfl rfl) (by simp [deadlineAhead, searching, booted])
    (disk_inv false (by decide))

theorem moving_inv {b : Byte} {k : Transfer} {i : Nat} (q : Bool) (h : transferOf (classify b) = some k)
    (hi : i < xferLen k) : Inv (machine (moving b i q) (disk false 0)) :=
  machine_inv (CtlInv.ofTransferring rfl rfl h hi rfl rfl) (by simp [deadlineAhead, moving])
    (disk_inv false (by decide))

/-! ## Witnesses: the hypotheses of each statement, met together -/

theorem witness_EncodeOfDecodeIsTheWord :
    decode (.bus 0xC1C#16) = .ok (.wrSys 0x1C#8) ∧ decode (.command 0x88#8) =
      .ok (.rdSec false true false false false) := by decide

theorem witness_HighNibbleAloneSelectsTheVariant :
    (0xD0#8).extractLsb' 4 4 = (0xDF#8).extractLsb' 4 4 := by decide

theorem witness_StepRunsTheDecodedInstruction :
    ((machine booted (disk false 0)).issue (.word (.bus 0x000#16))).input = [.word (.bus 0x000#16)] ∧
    decode (.bus 0x000#16) = .ok (.rdStatus 0#8) ∧ WellFormed (.rdStatus 0#8) = true := by decide

/-- The first select code, time and slot outside the contract. -/
theorem witness_OperationsOutsideTheContractAreRefused :
    ((0x500#16).extractLsb' 12 4 = 0#4 ∧ 4 < busSel 0x500#16) ∧ 999 < (machine booted (disk false 0)).ctl.now ∧
    4 ≤ 4 := by decide

theorem witness_NoFaultInsideTheContract :
    ∃ s : State, Inv s ∧ s.input = [.tick 11000 10000] ∧
      ∀ op rest, s.input = op :: rest → op.inContract s := by
  refine ⟨{ machine (searching 0x80#8) (disk false 0) with input := [.tick 11000 10000] },
    (searching_inv (k := .readSector) rfl).withInput _, rfl, ?_⟩
  intro op rest h
  cases h
  show 1000 ≤ 11000
  decide

/-- A step that moves: a search deadline reached. -/
theorem witness_StepKeepsTheInvariants :
    ∃ s t : State, Inv s ∧ step s = .next t ∧ t.ctl.phase = .transferring :=
  ⟨{ machine (searching 0x80#8) (disk false 0) with input := [.tick 11000 10000] }, _,
    (searching_inv (k := .readSector) rfl).withInput _, rfl, rfl⟩

theorem witness_PowerOnMeetsTheInvariants : Config.valid ⟨1, 2, 1⟩ ∧ referenceConfig.valid := by decide

theorem witness_StepKeepsTheDelays : ∃ t, step (State.reset.withFetchWord 16 0xC1C) = .next t := ⟨_, rfl⟩

theorem witness_RestoreHomesRegisterAndHead : (machine booted (disk false 0)).ctl.phase = .idle := rfl

theorem witness_SeekMovesByTheRegisterDifference :
    (machine (positioned 3#8 20#8 .Out) (disk false 70)).ctl.phase = .idle := rfl

theorem witness_StepMovesInTheStoredDirection :
    (machine (positioned 5#8 0#8 .In) (disk false 5)).ctl.phase = .idle := rfl

theorem witness_StepInMovesInward : (machine (positioned 255#8 0#8 .In) (disk false 79)).ctl.phase = .idle := rfl

theorem witness_StepOutMovesOutward : (machine (positioned 0#8 0#8 .In) (disk false 0)).ctl.phase = .idle := rfl

theorem witness_SettleEndsAtItsDeadline :
    let s := machine settling (disk false 0)
    s.ctl.phase = .searching ∧ isTypeOne (activeVariant s) = true ∧ s.ctl.deadline = some 2000 ∧
      s.ctl.now ≤ 2000 ∧ 2000 ≤ 2000 := by decide

theorem witness_ReadCommandsStartTheSearch :
    let s := machine booted (disk true 0)
    s.ctl.phase = .idle ∧ s.ctl.motorOn = true ∧ s.selected.hasDisk = true := by decide

theorem witness_WriteCommandsStartTheSearch :
    let s := machine booted (disk false 0)
    s.ctl.phase = .idle ∧ s.ctl.motorOn = true ∧ s.selected.hasDisk = true ∧ s.selected.readOnly = false := by
  decide

/-- The motor off with a disk in, and the motor on without one. -/
theorem witness_NotReadyEndsTheCommandAtOnce :
    let s := machine { booted with motorOn := false } (disk true 0)
    let t := machine booted Drive.powerOn
    (s.ctl.phase = .idle ∧ s.ctl.motorOn = false) ∧ t.ctl.phase = .idle ∧ t.selected.hasDisk = false := by decide

theorem witness_ReadOnlyMediaEndsAWriteCommandAtOnce :
    let s := machine booted (disk true 0)
    s.ctl.phase = .idle ∧ s.ctl.motorOn = true ∧ s.selected.hasDisk = true ∧ s.selected.readOnly = true := by
  decide

theorem witness_OnlyForceInterruptActsWhileBusy :
    (machine settling (disk false 0)).ctl.phase ≠ .idle ∧ classify 0x10#8 ≠ .forceInterrupt ∧
    classify 0xD0#8 = .forceInterrupt ∧ classify 0xDF#8 = .forceInterrupt := by decide

/-- Busy with another command; Idle; Busy with a Force-Interrupt. -/
theorem witness_CommandWriteRunsItsByte :
    ((machine settling (disk false 0)).ctl.phase ≠ .idle ∧ classify 0x80#8 ≠ .forceInterrupt) ∧
    (machine booted (disk false 0)).ctl.phase = .idle ∧ classify 0xD8#8 = .forceInterrupt := by decide

theorem witness_StatusByteBitByBit :
    (machine booted (disk false 0)).ctl.family = .typeI ∧
    (machine (moving 0x80#8 0 true) (disk false 0)).ctl.family = .typeII_III := by decide

/-- Each clause: Type I; Type I with the motor off; Type II/III with DRQ. -/
theorem witness_StatusBitsThatExcludeEachOther :
    (∃ s, Inv s ∧ s.ctl.family = .typeI) ∧ (∃ s, Inv s ∧ s.ctl.family = .typeI ∧ s.ctl.motorOn = false) ∧
    (∃ s, Inv s ∧ s.ctl.family = .typeII_III ∧ (status s).getLsbD 1 = true) :=
  ⟨⟨_, booted_inv false, rfl⟩,
    ⟨machine Controller.powerOn (disk false 0),
      machine_inv (CtlInv.ofIdle rfl rfl rfl fun _ => rfl) (by simp [deadlineAhead, Controller.powerOn])
        (disk_inv false (by decide)), rfl, rfl⟩,
    ⟨_, moving_inv (b := 0x80#8) (k := .readSector) (i := 0) true rfl (by decide), rfl, by decide⟩⟩

/-- The two ends of the values that address no sector, and the two ends of those that do. -/
theorem witness_SectorWriteLoadsOnlyTheSectorRegister :
    ((0x00#8).toNat = 0 ∨ 16 < (0x00#8).toNat) ∧ ((0x11#8).toNat = 0 ∨ 16 < (0x11#8).toNat) ∧
    ¬((0x10#8).toNat = 0 ∨ 16 < (0x10#8).toNat) ∧ ¬((0x01#8).toNat = 0 ∨ 16 < (0x01#8).toNat) := by decide

/-- The byte before the last and the last, of a sector and of a Read-Address. -/
theorem witness_DataReadConsumesTheWaitingByte :
    let s := fun i => machine (moving 0x80#8 i true) (disk false 0)
    let u := machine (moving 0xC0#8 5 true) (disk false 0)
    (activeTransfer (s 254) = some .readSector ∧ isReadTransfer .readSector = true ∧
      (s 254).ctl.phase = .transferring ∧ (s 254).ctl.drq = true ∧
      (s 254).ctl.byteIndex + 1 ≠ xferLen .readSector) ∧
    (s 255).ctl.byteIndex + 1 = xferLen .readSector ∧
    activeTransfer u = some .readAddress ∧ u.ctl.byteIndex + 1 = xferLen .readAddress := by decide

/-- The byte before the last and the last of a sector. -/
theorem witness_DataWriteStoresTheRequestedByte :
    ∀ i, i = 254 ∨ i = 255 → ∃ s : State, Inv s ∧ activeTransfer s = some .writeSector ∧
      isReadTransfer .writeSector = false ∧ s.ctl.phase = .transferring ∧ s.ctl.drq = true ∧
      s.selected.hasDisk = true ∧ s.selected.readOnly = false ∧ s.ctl.byteIndex = i ∧
      xferAddr .writeSector s.ctl.byteIndex s = some i := by
  rintro i (rfl | rfl)
  · exact ⟨machine (moving 0xA0#8 254 true) (disk false 0), moving_inv (k := .writeSector) true rfl (by decide),
      by decide⟩
  · exact ⟨machine (moving 0xA0#8 255 true) (disk false 0), moving_inv (k := .writeSector) true rfl (by decide),
      by decide⟩

/-- Not transferring; DRQ clear; the other direction, for each access. -/
theorem witness_DataAccessWithoutRequestIsPlain :
    (machine booted (disk false 0)).ctl.phase ≠ .transferring ∧
    (machine (moving 0x80#8 1 false) (disk false 0)).ctl.drq = false ∧
    (∀ k, activeTransfer (machine (moving 0xA0#8 0 true) (disk false 0)) = some k → isReadTransfer k = false) ∧
    (∀ k, activeTransfer (machine (moving 0x80#8 0 true) (disk false 0)) = some k → isReadTransfer k = true) := by
  refine ⟨by decide, rfl, fun k h => ?_, fun k h => ?_⟩
  · have : k = .writeSector := Option.some.inj (h.symm.trans (by decide))
    subst this; rfl
  · have : k = .readSector := Option.some.inj (h.symm.trans (by decide))
    subst this; rfl

/-- The slot emptied, the address invalid, and the media read-only, in mid-transfer. -/
theorem witness_FailedDataWriteEndsTheCommand :
    let s := machine (moving 0xA0#8 0 true) Drive.powerOn
    let t := machine { moving 0xA0#8 0 true with SR := 0#8 } (disk true 0)
    let u := machine (moving 0xA0#8 0 true) (disk true 0)
    (activeTransfer s = some .writeSector ∧ isReadTransfer .writeSector = false ∧
      s.ctl.phase = .transferring ∧ s.ctl.drq = true ∧ s.selected.hasDisk = false) ∧
    xferAddr .writeSector t.ctl.byteIndex t = none ∧
    (u.selected.hasDisk = true ∧ (xferAddr .writeSector u.ctl.byteIndex u).isSome = true ∧
      u.selected.readOnly = true) := by decide

/-- The three pairs of levels that are no pulse. -/
theorem witness_SystemControlWriteWithoutPulseOnlySelects :
    let s := machine booted (disk false 0)
    let t := machine { booted with resetLine := false } (disk false 0)
    ¬(s.ctl.resetLine = false ∧ (0x1C#8).getLsbD 2 = true) ∧
    ¬(s.ctl.resetLine = false ∧ (0x18#8).getLsbD 2 = true) ∧
    ¬(t.ctl.resetLine = false ∧ (0x18#8).getLsbD 2 = true) := by decide

theorem witness_ResetPulseState : State.reset.ctl.resetLine = false ∧ (0x1C#8).getLsbD 2 = true := by decide

/-- A pulse and a system reset in the middle of a transfer. -/
theorem witness_WhatSurvivesEveryReset :
    let s := machine { moving 0x80#8 3 true with resetLine := false } (disk false 7)
    (∃ op t, pulses op s ∧ perform op s = .next t) ∧ ∃ t, perform .reset s = .next t :=
  ⟨⟨.word (.bus 0xC1C#16), _, ⟨_, 0x1C#8, rfl, by decide, rfl, by decide⟩, rfl⟩, _, rfl⟩

/-- The tick before a deadline, and a tick with none pending. -/
theorem witness_TickBeforeTheDeadlineMovesOnlyTheClock :
    (∃ s : State, s.ctl.now ≤ 1999 ∧ s.ctl.deadline = some 2000 ∧ ∀ d, s.ctl.deadline = some d → 1999 < d) ∧
    ∃ s : State, s.ctl.now ≤ 5000 ∧ ∀ d, s.ctl.deadline = some d → 5000 < d := by
  refine ⟨⟨machine settling (disk false 0), by decide, rfl, fun d h => ?_⟩,
    ⟨machine booted (disk false 0), by decide, fun d h => by cases h⟩⟩
  cases h
  decide

/-- The search of each of the five, and of a sector that does not exist. -/
theorem witness_SearchDeadlineAsksForTheFirstByte :
    ∀ p ∈ [(0x80#8, Transfer.readSector), (0xA0#8, .writeSector), (0xC0#8, .readAddress), (0xE0#8, .readTrack),
        (0xF0#8, .writeTrack)],
      let s := machine (searching p.1) (disk false 0)
      s.ctl.phase = .searching ∧ activeTransfer s = some p.2 ∧ s.ctl.deadline = some 11000 ∧
        s.ctl.now ≤ 11000 ∧ 1 ≤ s.cfg.tByte := by decide

theorem witness_InterByteDeadlineAsksForTheNextByte :
    let s := machine (moving 0x80#8 255 false) (disk false 0)
    s.ctl.phase = .transferring ∧ activeTransfer s = some .readSector ∧
      s.ctl.byteIndex < xferLen .readSector ∧ s.ctl.drq = false ∧ s.ctl.deadline = some 11100 ∧
      s.ctl.now ≤ 11100 ∧ 1 ≤ s.cfg.tByte := by decide

/-- The byte before the last and the last. -/
theorem witness_UnservicedByteIsLost :
    let s := fun i => machine (moving 0xA0#8 i true) (disk false 0)
    ((s 254).ctl.phase = .transferring ∧ activeTransfer (s 254) = some .writeSector ∧
      (s 254).ctl.byteIndex < xferLen .writeSector ∧ (s 254).ctl.drq = true ∧
      (s 254).ctl.deadline = some 11100 ∧ (s 254).ctl.now ≤ 11100 ∧ 1 ≤ (s 254).cfg.tByte ∧
      (s 254).ctl.byteIndex + 1 ≠ xferLen .writeSector) ∧
    (s 255).ctl.byteIndex < xferLen .writeSector ∧ (s 255).ctl.byteIndex + 1 = xferLen .writeSector := by decide

/-- The last byte waiting, and a Read-Address that finds no ready drive. -/
theorem witness_ReadAddressOverwritesTheSectorRegister :
    let s := machine { moving 0xC0#8 5 true with TR := 5#8 } (disk false 0)
    let t := machine { booted with motorOn := false } (disk false 0)
    (activeVariant s = .readAddress ∧ s.ctl.phase = .transferring ∧ s.ctl.drq = true ∧ s.ctl.byteIndex = 5 ∧
      s.ctl.deadline = some 11100 ∧ s.ctl.now ≤ 11100) ∧
    t.ctl.phase = .idle ∧ ready t = false := by decide

theorem witness_OneTickEqualsTwo :
    ∃ s : State, Inv s ∧ s.ctl.now ≤ 11050 ∧ 11050 ≤ 36600 :=
  ⟨_, searching_inv (b := 0x80#8) (k := .readSector) rfl, by decide, by decide⟩

/-- A Read-Address on its last byte: the host's read of it, and a tick past its deadline. -/
theorem witness_TrackAndSectorReadsHaveNoSideEffect :
    let s := machine { moving 0xC0#8 5 true with TR := 5#8 } (disk false 0)
    activeVariant s = .readAddress ∧ s.ctl.phase = .transferring ∧ s.ctl.drq = true ∧ s.ctl.byteIndex = 5 ∧
    s.ctl.deadline = some 11100 ∧ 11100 ≤ 11100 ∧
    (∃ u, exec (.rdData 0x00#8) s = .next u) ∧ ∃ u, perform (.tick 11100 100) s = .next u :=
  ⟨by decide, rfl, rfl, rfl, rfl, by decide, ⟨_, rfl⟩, _, rfl⟩

/-- A sector read with every address valid; the last tick of its last byte and the tick that ends it. -/
theorem witness_UnservicedTransferRunsToItsEnd :
    ∃ s : State, Inv s ∧ s.ctl.phase = .searching ∧ activeTransfer s = some .readSector ∧
      s.ctl.deadline = some 11000 ∧ s.selected.hasDisk = true ∧
      (∀ i, i < xferLen .readSector → (xferAddr .readSector i s).isSome = true) ∧
      (36599 - 11000) / s.cfg.tByte < xferLen .readSector ∧
      xferLen .readSector ≤ (36600 - 11000) / s.cfg.tByte := by
  refine ⟨_, searching_inv (b := 0x80#8) (k := .readSector) rfl, rfl, by decide, rfl, rfl, fun i hi => ?_,
    by decide, by decide⟩
  exact Option.isSome_iff_exists.2 ⟨_, lin_eq_some.2 ⟨⟨by decide, by decide, by decide, by decide, hi⟩, rfl⟩⟩

/-- A Read-Address: the last tick of its last byte, which is the CRC's low byte, and the tick that ends it. -/
theorem witness_UnservicedTransferRunsToItsEnd_readAddress :
    ∃ s : State, Inv s ∧ s.ctl.phase = .searching ∧ activeTransfer s = some .readAddress ∧
      s.ctl.deadline = some 11000 ∧
      idByte (idFields s) ((11599 - 11000) / s.cfg.tByte) = some (idFields s).crcLow ∧
      xferLen .readAddress ≤ (11600 - 11000) / s.cfg.tByte :=
  ⟨_, searching_inv (b := 0xC0#8) (k := .readAddress) rfl, rfl, by decide, rfl, rfl, by decide⟩

/-- The corners of `Lin` and the last offset of an image. -/
theorem witness_LinIsABijectionOntoTheImage :
    lin 0 0 1 0 = some 0 ∧ lin 79 1 16 255 = some 655359 ∧ 655359 < 655360 := by decide

/-- The first and the last byte of a track, and the first offset beyond it. -/
theorem witness_TrackRegionIsItsSectorsInOrder :
    (1 ≤ 1 ∧ 1 ≤ 16 ∧ 0 < 256) ∧ (1 ≤ 16 ∧ 16 ≤ 16 ∧ 255 < 256) ∧ 4096 ≤ 4096 := by decide

theorem witness_InsertedDiskHoldsItsBytes : (List.replicate 655360 0x4E#8).length = 655360 :=
  List.length_replicate

theorem witness_WrongSizeInsertChangesNothing : (Buffer.mk 655359 []).size ≠ 655360 ∧
    (Buffer.mk 655361 []).size ≠ 655360 := by decide

/-- A dirty disk, a clean one and an empty slot. -/
theorem witness_FlushWritesBackOnlyADirtyDisk :
    let s := machine booted { disk false 0 with dirty := true }
    let t := machine booted (disk false 0)
    ((s.drv.get 0).hasDisk = true ∧ (s.drv.get 0).dirty = true) ∧ (t.drv.get 0).dirty = false ∧
    (t.drv.get 1).hasDisk = false := by decide

/-- A Read-Sector accepted. -/
theorem witness_FamilyChangesOnlyByCommandOrReset :
    ∃ t, perform (.word (.command 0x80#8)) (machine booted (disk false 0)) = .next t ∧
      t.ctl.family ≠ (machine booted (disk false 0)).ctl.family := ⟨_, rfl, by decide⟩

/-- A Step-In. -/
theorem witness_HeadMovesOnlyByTypeOneOrPulse :
    ∃ t, perform (.word (.command 0x50#8)) (machine booted (disk false 0)) = .next t ∧
      (t.drv.get 0).physicalTrack ≠ ((machine booted (disk false 0)).drv.get 0).physicalTrack :=
  ⟨_, rfl, by decide⟩

/-- A byte stored by a Write-Sector. -/
theorem witness_ImageChangesOnlyByInsertOrDataWrite :
    ∃ t, perform (.word (.bus 0xBFF#16)) (machine (moving 0xA0#8 0 true) (disk false 0)) = .next t ∧
      t.imageByte 0 0 ≠ (machine (moving 0xA0#8 0 true) (disk false 0)).imageByte 0 0 := ⟨_, rfl, by decide⟩

theorem witness_ClockMovesOnlyByTick :
    ∃ t, perform (.tick 1500 500) (machine booted (disk false 0)) = .next t ∧
      t.ctl.now ≠ (machine booted (disk false 0)).ctl.now := ⟨_, rfl, by decide⟩

/-- Slot 1 beside the selected slot 0, for an instruction and for a tick. -/
theorem witness_UnselectedSlotIsNeitherSeenNorTouched :
    let s := machine (moving 0xA0#8 0 true) (disk false 0)
    (1 : Fin 4) ≠ s.ctl.drive ∧ (∀ v, Instr.wrData 0xFF#8 ≠ .wrSys v) ∧
    (∃ t, exec (.wrData 0xFF#8) s = .next t) ∧ ∃ t, perform (.tick 11100 100) s = .next t :=
  ⟨by decide, by simp, ⟨_, rfl⟩, _, rfl⟩

end Sys2Proof.Tests
end

/-! PROOFS. The encoder and the decoder agree (O2, O3): how the four parts of a bus word are read back, and that
they are the whole word; a command byte has at most 32 operand values. -/

namespace Sys2Proof

/-! ### The parts of a bus word (R81) -/

@[simp] theorem busWord_high (rw : Bool) (sel : BitVec 3) (d : Byte) : (busWord rw sel d).extractLsb' 12 4 = 0#4 :=
  calc (busWord rw sel d).extractLsb' 12 4
    _ = (0#4 ++ BitVec.ofBool rw ++ sel).extractLsb' 4 4 := BitVec.extractLsb'_append_eq_of_le (by decide)
    _ = (0#4 ++ BitVec.ofBool rw).extractLsb' 1 4 := BitVec.extractLsb'_append_eq_of_le (by decide)
    _ = 0#4 := BitVec.extractLsb'_append_eq_left

/-- Bit 11 is `rw`, in the form `simp` gives `getLsbD 11`. -/
@[simp] theorem busWord_getElem_eleven (rw : Bool) (sel : BitVec 3) (d : Byte) : (busWord rw sel d)[11] = rw := by
  rw [← BitVec.getLsbD_eq_getElem, busWord, BitVec.getLsbD_append, BitVec.getLsbD_append, BitVec.getLsbD_append]
  simp

@[simp] theorem busSel_busWord (rw : Bool) (sel : BitVec 3) (d : Byte) : busSel (busWord rw sel d) = sel.toNat :=
  congrArg BitVec.toNat <| calc (busWord rw sel d).extractLsb' 8 3
    _ = (0#4 ++ BitVec.ofBool rw ++ sel).extractLsb' 0 3 := BitVec.extractLsb'_append_eq_of_le (by decide)
    _ = sel := BitVec.extractLsb'_append_eq_right

@[simp] theorem busData_busWord (rw : Bool) (sel : BitVec 3) (d : Byte) : busData (busWord rw sel d) = d :=
  BitVec.extractLsb'_append_eq_right

/-- The four parts are the whole word: no bit is dropped. -/
theorem busWord_of_fields {w : BitVec 16} {rw : Bool} {n : Nat} (high : w.extractLsb' 12 4 = 0#4)
    (hrw : w.getLsbD 11 = rw) (hsel : busSel w = n) : busWord rw (BitVec.ofNat 3 n) (busData w) = w := by
  have bit : BitVec.ofBool rw = w.extractLsb' 11 1 := by
    subst hrw
    ext i hi
    obtain rfl : i = 0 := by omega
    simp
  have sel : BitVec.ofNat 3 n = w.extractLsb' 8 3 := by
    rw [← hsel, busSel, BitVec.ofNat_toNat, BitVec.setWidth_eq]
  calc busWord rw (BitVec.ofNat 3 n) (busData w)
    _ = w.extractLsb' 12 4 ++ w.extractLsb' 11 1 ++ w.extractLsb' 8 3 ++ w.extractLsb' 0 8 := by
      rw [high, ← bit, ← sel, busWord, busData]
    _ = w.extractLsb' 11 5 ++ w.extractLsb' 8 3 ++ w.extractLsb' 0 8 := by
      rw [BitVec.extractLsb'_append_extractLsb'_eq_extractLsb' (by decide : 12 = 11 + 1)]
    _ = w.extractLsb' 8 8 ++ w.extractLsb' 0 8 := by
      rw [BitVec.extractLsb'_append_extractLsb'_eq_extractLsb' (by decide : 11 = 8 + 3)]
    _ = w := BitVec.extractLsb'_append_extractLsb'

/-- A bus word that decodes is the encoding of what it decodes to. -/
theorem encode_of_decode_bus {w : BitVec 16} {i : Instr} (h : decode (.bus w) = .ok i) : encode i = .bus w := by
  simp only [decode, decodeBus] at h
  split at h
  case isTrue => cases h
  case isFalse high =>
    split at h <;> cases h <;>
      exact congrArg HostWord.bus (busWord_of_fields (not_not.mp high) ‹_› ‹_›)

/-! ### The two directions -/

/-- Settles O2: a command's operands have at most five bits, so each row is checked at all of its values; a bus
word is read back part by part. -/
theorem decodeOfEncodeIsTheInstruction : Obligations.DecodeOfEncodeIsTheInstruction := by
  intro i
  cases i with
  | restore h V r => revert h V r; decide
  | seek h V r => revert h V r; decide
  | step u h V r => revert u h V r; decide
  | stepIn u h V r => revert u h V r; decide
  | stepOut u h V r => revert u h V r; decide
  | rdSec m S E C x => revert m S E C x; decide
  | wrSec m S E C a0 => revert m S E C a0; decide
  | rdAddr x3 E x1 x0 => revert x3 E x1 x0; decide
  | forceInt I => revert I; decide
  | rdTrk x3 E x1 x0 => revert x3 E x1 x0; decide
  | wrTrk x3 E x1 x0 => revert x3 E x1 x0; decide
  | rdStatus d | wrCmd d | rdTrack d | wrTrack d | rdSector d | wrSector d | rdData d | wrData d | rdSys d
  | wrSys d => simp [decode, encode, decodeBus]

/-- Settles O3: every byte is the word of what it decodes to (`decode_command_total`), and so is a bus word that
decodes. -/
theorem encodeOfDecodeIsTheWord : Obligations.EncodeOfDecodeIsTheWord := by
  intro w i h
  cases w with
  | command b =>
    obtain ⟨j, hj, hb⟩ := Machine.decode_command_total b
    cases hj.symm.trans h
    exact hb
  | bus w => exact encode_of_decode_bus h

end Sys2Proof

/-! PROOFS. Command writes and Busy (O23): a command byte sent is one written to the command register, and only a
Force-Interrupt skips the Busy test of R113. -/

namespace Sys2Proof.Machine

/-! ### A command byte, written or sent -/

theorem exec_wrCmd (b : Byte) (s : State) : exec (.wrCmd b) s = .next (writeCommand b s) := rfl

/-- A command byte sent has the effect of its write to the command register (R10). -/
theorem perform_command (b : Byte) (s : State) : perform (.word (.command b)) s = .next (writeCommand b s) := by
  obtain ⟨i, hi, -⟩ := decode_command_total b
  calc perform (.word (.command b)) s
    _ = exec i s := by simp only [perform, performWord, hi]
    _ = .next (writeCommand b s) := exec_command hi s

/-! ### The Busy test (R113, R167) -/

@[simp] theorem whenIdle_of_busy {f : State → State} {s : State} (busy : s.ctl.phase ≠ .idle) : whenIdle f s = s :=
  if_neg busy

/-- Every variant but Force-Interrupt acts under the Busy test. -/
theorem writeCommand_eq_whenIdle {b : Byte} (other : classify b ≠ .forceInterrupt) :
    ∃ f, ∀ s, writeCommand b s = whenIdle f s := by
  unfold writeCommand
  split
  case h_1 hv => exact absurd hv other
  all_goals exact ⟨_, fun _ => rfl⟩

theorem writeCommand_of_busy {b : Byte} {s : State} (busy : s.ctl.phase ≠ .idle)
    (other : classify b ≠ .forceInterrupt) : writeCommand b s = s := by
  obtain ⟨f, hf⟩ := writeCommand_eq_whenIdle other
  rw [hf, whenIdle_of_busy busy]

/-- A Force-Interrupt is accepted in every phase (R165). -/
theorem writeCommand_of_forceInterrupt {b : Byte} (hv : classify b = .forceInterrupt) (s : State) :
    writeCommand b s = forceInterruptCommand b s := by
  rw [writeCommand, hv]

/-- Settles O23: both ways of issuing the byte run `writeCommand`, where the Busy test keeps the state or the
Force-Interrupt is accepted. -/
theorem onlyForceInterruptActsWhileBusy : Obligations.OnlyForceInterruptActsWhileBusy := by
  constructor
  · intro s b busy other
    rw [exec_wrCmd, perform_command, writeCommand_of_busy busy other]
    exact ⟨rfl, rfl⟩
  · intro s b hv
    rw [exec_wrCmd, perform_command, writeCommand_of_forceInterrupt hv]
    exact ⟨_, rfl, rfl, hv, rfl⟩

end Sys2Proof.Machine

/-! PROOFS. Status bit 7 (O27): `Ready()` is read where the byte is built, and either layout puts its negation
first. -/

namespace Sys2Proof.Machine

theorem ready_iff {s : State} :
    ready s = true ↔ s.ctl.motorOn = true ∧ (s.drv.get s.ctl.drive).hasDisk = true :=
  Bool.and_eq_true_iff

theorem byteOfBits_getLsbD_seven (b7 b6 b5 b4 b3 b2 b1 b0 : Bool) :
    (byteOfBits b7 b6 b5 b4 b3 b2 b1 b0).getLsbD 7 = b7 := by
  rw [byteOfBits]
  iterate 7 rw [BitVec.getLsbD_append]
  simp

theorem status_of_typeI {s : State} (hf : s.ctl.family = .typeI) : status s = statusTypeI s := by
  rw [status, hf]

theorem status_of_typeII_III {s : State} (hf : s.ctl.family = .typeII_III) : status s = statusTypeII_III s := by
  rw [status, hf]

theorem status_getLsbD_seven (s : State) : (status s).getLsbD 7 = !ready s := by
  cases hf : s.ctl.family with
  | typeI => rw [status_of_typeI hf, statusTypeI, byteOfBits_getLsbD_seven]
  | typeII_III => rw [status_of_typeII_III hf, statusTypeII_III, byteOfBits_getLsbD_seven]

/-- Settles O27: `Ready()` is the conjunction R193 states, and bit 7 of each layout is its negation. -/
theorem notReadyBitIsLiveInBothLayouts : Obligations.NotReadyBitIsLiveInBothLayouts :=
  fun s => ⟨ready_iff, status_getLsbD_seven s⟩

end Sys2Proof.Machine

/-! PROOFS. An insert of a buffer of the wrong size (O53): the slot number is in range, and the size test of R218
is the first thing an insert does. -/

namespace Sys2Proof.Machine

/-- A slot's own number is in range (R244). -/
@[simp] theorem withSlot_val (d : Fin 4) (f : Fin 4 → State) : withSlot d.val f = .next (f d) := dif_pos d.isLt

theorem perform_insert (d : Fin 4) (b : Buffer) (ro : Bool) (s : State) :
    perform (.insert d.val b ro) s = .next (insertDisk b ro d s) :=
  withSlot_val d (fun i => insertDisk b ro i s)

/-- A load failure only tells the caller (R218, R256). -/
theorem insertDisk_of_wrongSize {b : Buffer} (wrong : b.size ≠ IMAGE_SIZE) (ro : Bool) (d : Fin 4) (s : State) :
    insertDisk b ro d s = s.emit (.inserted d false) :=
  if_pos wrong

/-- Settles O53: the insert reaches the size test, whose failing branch puts out the failure and nothing else. -/
theorem wrongSizeInsertChangesNothing : Obligations.WrongSizeInsertChangesNothing := by
  intro s d b ro wrong
  rw [perform_insert, insertDisk_of_wrongSize (imageSize_eq ▸ wrong)]
  rfl

end Sys2Proof.Machine

/-! PROOFS. Register accesses (O24, O25, O29, O30, O32): what each answers, the bits of a system control read, the
sector numbers that address nothing, and the two ways the last byte of a Read-Address can go (R153). -/

namespace Sys2Proof.Machine

/-! ### What an access answers (R231 to R239) -/

theorem exec_rdStatus (z : Byte) (s : State) :
    exec (.rdStatus z) s = .next ((acknowledge s).emit (.read (status s))) := rfl

theorem exec_rdTrack (z : Byte) (s : State) : exec (.rdTrack z) s = .next (s.emit (.read s.ctl.TR)) := rfl

theorem exec_rdSector (z : Byte) (s : State) : exec (.rdSector z) s = .next (s.emit (.read s.ctl.SR)) := rfl

theorem exec_wrSector (b : Byte) (s : State) :
    exec (.wrSector b) s = .next { s with ctl := { s.ctl with SR := b } } := rfl

theorem exec_rdData (z : Byte) (s : State) :
    exec (.rdData z) s = .next ((readDataEffect s).emit (.read s.ctl.DR)) := rfl

theorem exec_rdSys (z : Byte) (s : State) : exec (.rdSys z) s = .next (s.emit (.read (readSys s))) := rfl

/-- Settles O24: under the Busy test the write keeps the state; the command the byte decodes to is the write of that
byte (`exec_command`), so both answer `writeCommand b s`. -/
theorem commandWriteRunsItsByte : Obligations.CommandWriteRunsItsByte := by
  intro s b
  constructor
  · rintro ⟨busy, other⟩
    rw [exec_wrCmd, writeCommand_of_busy busy other]
  · intro _
    obtain ⟨i, hi, -⟩ := decode_command_total b
    exact ⟨i, writeCommand b s, hi, exec_command hi s, exec_wrCmd b s⟩

/-- Settles O25: the byte is that of the state before the acknowledge, which clears `intrq` alone. -/
theorem statusReadClearsOnlyIntrq : Obligations.StatusReadClearsOnlyIntrq := exec_rdStatus

/-! ### The system control read (R204) -/

theorem readSys_getLsbD_seven (s : State) : (readSys s).getLsbD 7 = s.ctl.intrq := by
  rw [readSys, BitVec.getLsbD_append, BitVec.getLsbD_append]
  simp

theorem readSys_getLsbD_six (s : State) : (readSys s).getLsbD 6 = s.ctl.drq := by
  rw [readSys, BitVec.getLsbD_append, BitVec.getLsbD_append]
  simp

/-- Settles O30: the byte is `readSys`, whose two high bits are the flags. -/
theorem systemControlReadMirrorsTheFlags : Obligations.SystemControlReadMirrorsTheFlags :=
  fun z s => ⟨readSys s, exec_rdSys z s, readSys_getLsbD_seven s, readSys_getLsbD_six s⟩

/-! ### Sector numbers that address nothing (R212) -/

theorem lin_eq_none_of_noSector {r : Nat} (outside : r = 0 ∨ 16 < r) (t s o : Nat) : lin t s r o = none := by
  refine Option.eq_none_iff_forall_ne_some.2 fun a valid => ?_
  obtain ⟨⟨-, -, low, high, -⟩, -⟩ := lin_eq_some.1 valid
  omega

/-- Settles O32: any byte is stored, and only sector numbers 1 to 16 have an address. -/
theorem sectorWriteLoadsOnlyTheSectorRegister : Obligations.SectorWriteLoadsOnlyTheSectorRegister :=
  fun b s => ⟨_, exec_wrSector b s, rfl, imageByte_congr rfl, lin_eq_none_of_noSector⟩

/-! ### The last byte of a transfer, consumed or lost (R176, R178) -/

theorem activeTransfer_of_readAddress {s : State} (hv : activeVariant s = .readAddress) :
    activeTransfer s = some .readAddress := by
  rw [activeTransfer, hv, transferOf]

/-- The sector-register quirk of Read-Address (R153). -/
theorem complete_SR_of_readAddress {s : State} (hv : activeVariant s = .readAddress) :
    (complete s).ctl.SR = s.ctl.idBuf.track :=
  if_pos hv

theorem readDataEffect_of_waiting {s : State} {k : Transfer} (hk : activeTransfer s = some k)
    (hread : isReadTransfer k = true) (hp : s.ctl.phase = .transferring) (hdrq : s.ctl.drq = true) :
    readDataEffect s = consumed k s := by
  have waiting : readWaiting s = some k := by
    rw [readWaiting, hk]
    exact if_pos ⟨hp, hdrq, hread⟩
  rw [readDataEffect, waiting]
  rfl

theorem consumed_of_last {s : State} {k : Transfer} (last : s.ctl.byteIndex + 1 = xferLen k) :
    consumed k s = complete (advance { s with ctl := { s.ctl with drq := false } }) :=
  if_pos last

theorem fire_of_last {s : State} {k : Transfer} (d : Nat) (hk : activeTransfer s = some k)
    (hp : s.ctl.phase = .transferring) (hdrq : s.ctl.drq = true) (last : s.ctl.byteIndex + 1 = xferLen k) :
    fire d s = .ok (complete (advance (raiseLostData s))) := by
  have lost : fire d s = lostByte k d s := by simp [fire, hp, hk, hdrq]
  rw [lost, lostByte_eq, if_pos last]

/-! ### A tick that goes on -/

theorem perform_tick_next {s t : State} {abs delta : Nat} (h : perform (.tick abs delta) s = .next t) :
    fireDue (tickFuel s) (setNow abs s) = .ok t := by
  rw [perform, tick] at h
  split at h
  · cases h
  · split at h <;> cases h
    assumption

theorem tickFuel_pos (s : State) : 0 < tickFuel s := by
  unfold tickFuel
  split <;> omega

/-- A firing that leaves no deadline is the last of its tick. -/
theorem fireDue_of_final {s t : State} {d n : Nat} (hn : 0 < n) (due : dueDeadline s = some d)
    (hf : fire d s = .ok t) (final : t.ctl.deadline = none) : fireDue n s = .ok t := by
  obtain ⟨n, rfl⟩ := Nat.exists_eq_succ_of_ne_zero hn.ne'
  rw [fireDue_next n due, hf]
  exact fireDue_done n (dueDeadline_none.2 (by simp [final]))

/-! ### The track value in `SR` after a Read-Address (R235) -/

section LastIdByte

variable {s u : State} (hv : activeVariant s = .readAddress) (hp : s.ctl.phase = .transferring)
  (hdrq : s.ctl.drq = true) (hi : s.ctl.byteIndex = 5)

include hv hp hdrq hi

theorem SR_after_last_id_byte_consumed {y : Byte} (h : exec (.rdData y) s = .next u) :
    u.ctl.SR = s.ctl.idBuf.track := by
  have last : s.ctl.byteIndex + 1 = xferLen .readAddress := by rw [hi, xferLen]
  rw [exec_rdData, readDataEffect_of_waiting (activeTransfer_of_readAddress hv) rfl hp hdrq,
    consumed_of_last last] at h
  cases h
  exact complete_SR_of_readAddress hv

theorem SR_after_last_id_byte_lost {d abs delta : Nat} (hd : s.ctl.deadline = some d) (due : d ≤ abs)
    (h : perform (.tick abs delta) s = .next u) : u.ctl.SR = s.ctl.idBuf.track := by
  have last : s.ctl.byteIndex + 1 = xferLen .readAddress := by rw [hi, xferLen]
  have fired : fire d (setNow abs s) = .ok (complete (advance (raiseLostData (setNow abs s)))) :=
    fire_of_last d (activeTransfer_of_readAddress hv) hp hdrq last
  have reached : dueDeadline (setNow abs s) = some d := dueDeadline_some.2 ⟨hd, due⟩
  have ended := fireDue_of_final (tickFuel_pos s) reached fired rfl
  cases ended.symm.trans (perform_tick_next h)
  exact complete_SR_of_readAddress hv

end LastIdByte

/-- Settles O29: both reads put out their register; at its last byte a Read-Address completes, consumed or lost, and
the completion puts the track value in `SR`. -/
theorem trackAndSectorReadsHaveNoSideEffect : Obligations.TrackAndSectorReadsHaveNoSideEffect := by
  refine ⟨fun z s => ⟨exec_rdTrack z s, exec_rdSector z s⟩, ?_⟩
  intro z s u hv hp hdrq hi ended
  have track : u.ctl.SR = s.ctl.idBuf.track := by
    obtain ⟨y, h⟩ | ⟨d, abs, delta, hd, due, h⟩ := ended
    · exact SR_after_last_id_byte_consumed hv hp hdrq hi h
    · exact SR_after_last_id_byte_lost hv hp hdrq hi hd due h
  rw [exec_rdSector, track]
  rfl

end Sys2Proof.Machine

/-! PROOFS. The machine's invariants along the stream (O5 to O11): an instruction is a command byte's write or one of
the ten register accesses, and each keeps `Inv`; inside the host contract every operation answers a next state. -/

namespace Sys2Proof.Machine

/-! ### An instruction is a command byte or a register access -/

/-- The eleven rows of 8 bits and the ten of 12 (R80). -/
theorem encode_cases (i : Instr) : (∃ b, encode i = .command b) ∨
    ∃ d, i = .rdStatus d ∨ i = .wrCmd d ∨ i = .rdTrack d ∨ i = .wrTrack d ∨ i = .rdSector d ∨
      i = .wrSector d ∨ i = .rdData d ∨ i = .wrData d ∨ i = .rdSys d ∨ i = .wrSys d := by
  cases he : encode i with
  | command b => exact .inl ⟨b, rfl⟩
  | bus w => exact .inr (decode_bus_cases (w := w) (he ▸ decodeOfEncodeIsTheInstruction i))

/-- A command instruction writes its own byte to the command register. -/
theorem exec_of_encode_command {i : Instr} {b : Byte} (he : encode i = .command b) (s : State) :
    exec i s = .next (writeCommand b s) :=
  exec_command (he ▸ decodeOfEncodeIsTheInstruction i) s

theorem exec_wrTrack (b : Byte) (s : State) :
    exec (.wrTrack b) s = .next { s with ctl := { s.ctl with TR := b } } := rfl

theorem exec_wrData (b : Byte) (s : State) : exec (.wrData b) s = .next (writeData b s) := rfl

theorem exec_wrSys (v : Byte) (s : State) : exec (.wrSys v) s = .next (writeSys v s) := rfl

/-! ### Every operation keeps the invariants (R44) -/

/-- The controller's invariant speaks of neither the track nor the sector register. -/
theorem CtlInv.withRegisters {c : Controller} (h : CtlInv c) (tr sr : Byte) :
    CtlInv { c with TR := tr, SR := sr } :=
  ⟨h.idleIffNoDeadline, h.drqTransferring, h.searchingCommand, h.transferRunning, h.familyOfCommand,
    h.typeIClean, h.busyNoIntrq⟩

theorem CtlInv.withoutIntrq {c : Controller} (h : CtlInv c) : CtlInv { c with intrq := false } :=
  ⟨h.idleIffNoDeadline, h.drqTransferring, h.searchingCommand, h.transferRunning, h.familyOfCommand,
    h.typeIClean, fun _ => rfl⟩

theorem acknowledge_inv {s : State} (h : Inv s) : Inv (acknowledge s) :=
  ⟨h.delays, h.ctl.withoutIntrq, h.ahead, h.slots⟩

/-- Every command byte, in any phase. -/
theorem writeCommand_inv {s : State} (b : Byte) (h : Inv s) : Inv (writeCommand b s) := by
  unfold writeCommand
  split <;> rename_i hv
  · exact forceInterruptCommand_inv b h
  · exact typeOneCommand_inv h doRestore_keeps (by rw [hv]; rfl)
  · exact typeOneCommand_inv h doSeek_keeps (by rw [hv]; rfl)
  · exact typeOneCommand_inv h (doStep_keeps _) (by rw [hv]; rfl)
  · exact typeOneCommand_inv h (doStepIn_keeps _) (by rw [hv]; rfl)
  · exact typeOneCommand_inv h (doStepOut_keeps _) (by rw [hv]; rfl)
  · exact typeTwoThreeCommand_inv h (k := .readSector) (by rw [hv]; rfl) (.inl rfl)
  · exact typeTwoThreeCommand_inv h (k := .writeSector) (by rw [hv]; rfl) (.inr rfl)
  · exact typeTwoThreeCommand_inv h (k := .readAddress) (by rw [hv]; rfl) (.inl rfl)
  · exact typeTwoThreeCommand_inv h (k := .readTrack) (by rw [hv]; rfl) (.inl rfl)
  · exact typeTwoThreeCommand_inv h (k := .writeTrack) (by rw [hv]; rfl) (.inr rfl)
  · exact unknownCommand_inv b h

/-- Every instruction answers a next state and keeps the invariants. -/
theorem exec_inv {s : State} (i : Instr) (h : Inv s) : ∃ t, exec i s = .next t ∧ Inv t := by
  obtain ⟨b, he⟩ | ⟨d, rfl | rfl | rfl | rfl | rfl | rfl | rfl | rfl | rfl | rfl⟩ := encode_cases i
  · exact ⟨_, exec_of_encode_command he s, writeCommand_inv b h⟩
  · exact ⟨_, exec_rdStatus d s, (acknowledge_inv h).emit _⟩
  · exact ⟨_, exec_wrCmd d s, writeCommand_inv d h⟩
  · exact ⟨_, exec_rdTrack d s, h.emit _⟩
  · exact ⟨_, exec_wrTrack d s, h.delays, h.ctl.withRegisters d s.ctl.SR, h.ahead, h.slots⟩
  · exact ⟨_, exec_rdSector d s, h.emit _⟩
  · exact ⟨_, exec_wrSector d s, h.delays, h.ctl.withRegisters s.ctl.TR d, h.ahead, h.slots⟩
  · exact ⟨_, exec_rdData d s, (readDataEffect_inv h).emit _⟩
  · exact ⟨_, exec_wrData d s, writeData_inv d h⟩
  · exact ⟨_, exec_rdSys d s, h.emit _⟩
  · exact ⟨_, exec_wrSys d s, writeSys_inv d h⟩

/-- A word that decodes performs its instruction. -/
theorem perform_word_of_decode {w : HostWord} {i : Instr} (hd : decode w = .ok i) (s : State) :
    perform (.word w) s = exec i s := by
  simp only [perform, performWord, hd]

/-- A tick that goes on does not go back (R170). -/
theorem now_le_of_tick {s t : State} {abs delta : Nat} (h : tick abs delta s = .next t) : s.ctl.now ≤ abs := by
  by_contra back
  rw [tick, if_pos (Nat.lt_of_not_le back)] at h
  cases h

theorem perform_word_inv {s t : State} {w : HostWord} (h : Inv s) (ht : perform (.word w) s = .next t) :
    Inv t := by
  cases hd : decode w with
  | ok i =>
    rw [perform_word_of_decode hd] at ht
    obtain ⟨u, hu, inv⟩ := exec_inv i h
    cases hu.symm.trans ht
    exact inv
  | error e =>
    simp only [perform, performWord, hd] at ht
    cases e <;> cases ht
    exact unknownCommand_inv _ h

/-- Every operation of the host that goes on. -/
theorem perform_inv {s t : State} {op : HostOp} (h : Inv s) (ht : perform op s = .next t) : Inv t := by
  cases op with
  | word w => exact perform_word_inv h ht
  | tick abs delta =>
    obtain ⟨u, hu, inv⟩ := tick_inv (delta := delta) h (now_le_of_tick (delta := delta) ht)
    cases hu.symm.trans ht
    exact inv
  | insert d b ro =>
    obtain ⟨i, -, rfl⟩ := withSlot_next (f := fun i => insertDisk b ro i s) ht
    exact insertDisk_inv b ro h
  | eject d =>
    obtain ⟨i, -, rfl⟩ := withSlot_next (f := fun i => ejectDisk i s) ht
    exact ejectDisk_inv h
  | flush d =>
    obtain ⟨i, -, rfl⟩ := withSlot_next (f := fun i => flushDisk i s) ht
    exact flushDisk_inv h
  | reset =>
    cases ht
    exact systemReset_inv h

theorem step_of_nil {s : State} (hin : s.input = []) : step s = .next s := by
  rw [step, performNext, hin]

theorem step_of_cons {s : State} {op : HostOp} {rest : List HostOp} (hin : s.input = op :: rest) :
    step s = perform op { s with input := rest } := by
  rw [step, performNext, hin]

/-- Settles O8: with nothing in the stream the state stays, and otherwise the step is one operation, each of which
keeps the invariants (`perform_inv`). -/
theorem stepKeepsTheInvariants : Obligations.StepKeepsTheInvariants := by
  intro s t h ht
  cases hin : s.input with
  | nil =>
    cases (step_of_nil hin).symm.trans ht
    exact h
  | cons op rest =>
    rw [step_of_cons hin] at ht
    exact perform_inv (h.withInput rest) ht

/-! ### Inside the contract every operation answers (R244) -/

/-- The ten bus words of R81 decode. -/
theorem decode_bus_total {w : BitVec 16} (high : w.extractLsb' 12 4 = 0#4) (sel : busSel w ≤ 4) :
    ∃ i, decode (.bus w) = .ok i := by
  simp only [decode, decodeBus, high, ne_eq, not_true_eq_false, if_false]
  generalize busSel w = n at sel
  interval_cases n <;> cases w.getLsbD 11 <;> exact ⟨_, rfl⟩

/-- A select code above 4 names no register (R81). -/
theorem decode_bus_noRegister {w : BitVec 16} (high : w.extractLsb' 12 4 = 0#4) (sel : 4 < busSel w) :
    decode (.bus w) = .error (.noSuchRegister (busSel w)) := by
  simp only [decode, decodeBus, high, ne_eq, not_true_eq_false, if_false]
  split
  case h_11 => rfl
  all_goals omega

theorem perform_eject (d : Fin 4) (s : State) : perform (.eject d.val) s = .next (ejectDisk d s) :=
  withSlot_val d (fun i => ejectDisk i s)

theorem perform_flush (d : Fin 4) (s : State) : perform (.flush d.val) s = .next (flushDisk d s) :=
  withSlot_val d (fun i => flushDisk i s)

theorem perform_total {s : State} {op : HostOp} (h : Inv s) (hc : op.inContract s) :
    ∃ t, perform op s = .next t := by
  cases op with
  | word w =>
    cases w with
    | command b => exact ⟨_, perform_command b s⟩
    | bus w =>
      obtain ⟨i, hi⟩ := decode_bus_total hc.1 hc.2
      obtain ⟨t, ht, -⟩ := exec_inv i h
      exact ⟨t, (perform_word_of_decode hi s).trans ht⟩
  | tick abs delta =>
    obtain ⟨t, ht, -⟩ := tick_inv (delta := delta) h hc
    exact ⟨t, ht⟩
  | insert d b ro => exact ⟨_, perform_insert ⟨d, hc⟩ b ro s⟩
  | eject d => exact ⟨_, perform_eject ⟨d, hc⟩ s⟩
  | flush d => exact ⟨_, perform_flush ⟨d, hc⟩ s⟩
  | reset => exact ⟨_, rfl⟩

/-- Settles O7: the operation at the head of the stream is in the contract, so it is performed (`perform_total`). -/
theorem noFaultInsideTheContract : Obligations.NoFaultInsideTheContract := by
  intro s h hc
  cases hin : s.input with
  | nil => exact ⟨s, step_of_nil hin⟩
  | cons op rest =>
    have inContract : op.inContract { s with input := rest } := by
      have := hc op rest hin
      cases op <;> exact this
    obtain ⟨t, ht⟩ := perform_total (h.withInput rest) inContract
    exact ⟨t, (step_of_cons hin).trans ht⟩

/-- Settles O5: the step takes the head of the stream, and a word that decodes performs its instruction. -/
theorem stepRunsTheDecodedInstruction : Obligations.StepRunsTheDecodedInstruction := by
  intro s w i rest hin hd _
  rw [step_of_cons hin, perform_word_of_decode hd]

theorem withSlot_of_le {d : Nat} (hd : 4 ≤ d) (f : Fin 4 → State) : withSlot d f = .refused (.noSuchSlot d) :=
  dif_neg (Nat.not_lt.2 hd)

/-- Settles O6: a register that is none, a clock that goes back and a slot that is none are each met by the first
test the operation makes. -/
theorem operationsOutsideTheContractAreRefused : Obligations.OperationsOutsideTheContractAreRefused := by
  refine ⟨?_, ?_, ?_, ?_, ?_⟩
  · intro s w high sel
    simp only [perform, performWord, decode_bus_noRegister high sel, rejectWord]
  · intro s abs delta back
    exact if_pos back
  · intro s d b ro hd
    exact withSlot_of_le hd (fun i => insertDisk b ro i s)
  · intro s d hd
    exact withSlot_of_le hd (fun i => ejectDisk i s)
  · intro s d hd
    exact withSlot_of_le hd (fun i => flushDisk i s)

/-! ### Power-on (R47) and the delays (R46) -/

@[simp] theorem powerOn_get (d : Fin 4) : Drives.powerOn.get d = Drive.powerOn := by
  fin_cases d <;> rfl

theorem powerOn_inv {cfg : Config} (hcfg : cfg.valid) : Inv (State.powerOn cfg) where
  delays := hcfg
  ctl := CtlInv.ofIdle rfl rfl rfl fun _ => rfl
  ahead := fun _ none => by cases none
  slots d := by
    rw [State.powerOn, powerOn_get]
    exact ⟨by decide, rfl, fun _ => ⟨rfl, rfl⟩⟩

/-- Settles O9: the controller is Idle with nothing pending or latched, and every slot is empty with its head at
track 0; the reference delays are admissible. -/
theorem powerOnMeetsTheInvariants : Obligations.PowerOnMeetsTheInvariants :=
  ⟨fun _ => powerOn_inv, powerOn_inv (by decide)⟩

/-- Settles O10: the four slots are the empty slot. -/
theorem powerOnValues : Obligations.PowerOnValues := by
  intro cfg
  refine ⟨rfl, fun d => ?_⟩
  rw [State.powerOn, powerOn_get]
  exact ⟨rfl, rfl, rfl, rfl⟩

@[simp] theorem insertDisk_cfg (b : Buffer) (ro : Bool) (d : Fin 4) (s : State) :
    (insertDisk b ro d s).cfg = s.cfg := by
  unfold insertDisk
  split <;> rfl

@[simp] theorem flushDisk_cfg (d : Fin 4) (s : State) : (flushDisk d s).cfg = s.cfg := by
  unfold flushDisk
  dsimp only
  split <;> rfl

/-- No operation changes the delays. -/
theorem Performed.cfg_eq {s t : State} {op : HostOp} (h : Performed s op t) : t.cfg = s.cfg := by
  cases h with
  | command _ cases => exact cases.cfg
  | access cfg => exact cfg
  | store _ _ _ cfg => exact cfg
  | select => rfl
  | pulse => rfl
  | tick _ keeps => exact keeps.cfg
  | insert b ro => exact insertDisk_cfg b ro _ s
  | eject => rfl
  | flush => exact flushDisk_cfg _ s
  | reset => rfl

/-- Settles O11: a step is one operation or none, and no operation changes the delays (`Performed.cfg_eq`). -/
theorem stepKeepsTheDelays : Obligations.StepKeepsTheDelays := by
  intro s t ht
  cases hin : s.input with
  | nil =>
    cases (step_of_nil hin).symm.trans ht
    rfl
  | cons op rest =>
    rw [step_of_cons hin] at ht
    exact (perform_cases ht).cfg_eq

end Sys2Proof.Machine

/-! PROOFS. Rules of the whole machine (O56 to O59): what an operation that goes on can have done to the family, the
clock, a head and an image byte, read off the cases of `Performed`. -/

namespace Sys2Proof.Machine

/-! ### The slot operations leave the controller and the heads alone (R218 to R220) -/

@[simp] theorem insertDisk_ctl (b : Buffer) (ro : Bool) (d : Fin 4) (s : State) :
    (insertDisk b ro d s).ctl = s.ctl := by
  unfold insertDisk
  split <;> rfl

@[simp] theorem flushDisk_ctl (d : Fin 4) (s : State) : (flushDisk d s).ctl = s.ctl := by
  unfold flushDisk
  dsimp only
  split <;> rfl

/-- A function of a slot that does not see a change of slot `d` is the same for every slot after it. -/
theorem Drives.get_set_congr {α : Type} (f : Drive → α) {ds : Drives} {d : Fin 4} {x : Drive}
    (hx : f x = f (ds.get d)) (e : Fin 4) : f ((ds.set d x).get e) = f (ds.get e) := by
  rw [Drives.get_set]
  split
  · subst_vars
    exact hx
  · rfl

theorem insertDisk_physicalTrack (b : Buffer) (ro : Bool) (d e : Fin 4) (s : State) :
    ((insertDisk b ro d s).drv.get e).physicalTrack = (s.drv.get e).physicalTrack := by
  unfold insertDisk
  split
  · rfl
  · exact Drives.get_set_congr Drive.physicalTrack (by rfl) e

/-- An insert acts on its own slot. -/
theorem insertDisk_get_other (b : Buffer) (ro : Bool) {d e : Fin 4} (other : e ≠ d) (s : State) :
    (insertDisk b ro d s).drv.get e = s.drv.get e := by
  unfold insertDisk
  split
  · rfl
  · exact Drives.get_set_other _ _ other

theorem flushDisk_slot (d e : Fin 4) (s : State) :
    ((flushDisk d s).drv.get e).physicalTrack = (s.drv.get e).physicalTrack ∧
      ((flushDisk d s).drv.get e).image = (s.drv.get e).image := by
  unfold flushDisk
  dsimp only
  split
  · exact ⟨Drives.get_set_congr Drive.physicalTrack (by rfl) e, Drives.get_set_congr Drive.image (by rfl) e⟩
  · exact ⟨rfl, rfl⟩

theorem ejectDisk_slot (d e : Fin 4) (s : State) :
    ((ejectDisk d s).drv.get e).physicalTrack = (s.drv.get e).physicalTrack ∧
      ((ejectDisk d s).drv.get e).image = (s.drv.get e).image :=
  ⟨Drives.get_set_congr Drive.physicalTrack (by rfl) e, Drives.get_set_congr Drive.image (by rfl) e⟩

/-! ### A move of the head -/

theorem movePhys_get_other {d e : Fin 4} (other : e ≠ d) (n : Int) (s : State) :
    (movePhys d n s).drv.get e = s.drv.get e :=
  Drives.get_set_other _ _ other

theorem movePhys_image (d e : Fin 4) (n : Int) (s : State) :
    ((movePhys d n s).drv.get e).image = (s.drv.get e).image :=
  Drives.get_set_congr Drive.image (by rfl) e

/-! ### The family (R35, R195) and the clock (R37) -/

/-- Settles O56: only a command byte, a pulse and a system reset write the family, and `CommandCases` says when a
command byte does. -/
theorem familyChangesOnlyByCommandOrReset : Obligations.FamilyChangesOnlyByCommandOrReset := by
  intro s t op ht changed
  cases perform_cases ht with
  | command sent cases =>
    obtain ⟨accepted, family⟩ := cases.family changed
    exact .inr (.inr ⟨_, sent, accepted, family⟩)
  | access _ _ family => exact absurd family changed
  | store _ _ _ _ family => exact absurd family changed
  | select => exact absurd rfl changed
  | pulse word low high => exact .inr (.inl ⟨_, _, rfl, word, low, high⟩)
  | tick _ keeps => exact absurd keeps.family changed
  | insert b ro => exact absurd (by rw [insertDisk_ctl]) changed
  | eject => exact absurd rfl changed
  | flush => exact absurd (by rw [flushDisk_ctl]) changed
  | reset => exact .inl rfl

/-- Every operation keeps the clock but a tick, which sets it to its count. -/
theorem Performed.now_cases {s t : State} {op : HostOp} (h : Performed s op t) :
    t.ctl.now = s.ctl.now ∨ ∃ abs delta, op = .tick abs delta ∧ s.ctl.now ≤ abs ∧ t.ctl.now = abs := by
  cases h with
  | command _ cases => exact .inl cases.now
  | access _ _ _ now => exact .inl now
  | store _ _ _ _ _ now => exact .inl now
  | select => exact .inl rfl
  | pulse => exact .inl rfl
  | tick ahead keeps => exact .inr ⟨_, _, rfl, ahead, keeps.now⟩
  | insert b ro => exact .inl (by rw [insertDisk_ctl])
  | eject => exact .inl rfl
  | flush => exact .inl (by rw [flushDisk_ctl])
  | reset => exact .inl rfl

/-- Settles O59: a tick does not go back (R170), and nothing else sets the clock (`Performed.now_cases`). -/
theorem clockMovesOnlyByTick : Obligations.ClockMovesOnlyByTick := by
  intro s t op ht
  obtain same | ⟨abs, delta, rfl, ahead, now⟩ := (perform_cases ht).now_cases
  · exact ⟨same.ge, fun moved => absurd same moved⟩
  · exact ⟨now ▸ ahead, fun _ => ⟨abs, delta, rfl, now⟩⟩

/-! ### The heads (R203, R234) -/

/-- Settles O57: a command byte moves the selected head if it is an accepted Type I command, a pulse homes it, and
every other operation keeps all four. -/
theorem headMovesOnlyByTypeOneOrPulse : Obligations.HeadMovesOnlyByTypeOneOrPulse := by
  intro s t op d ht moved
  cases perform_cases ht with
  | command sent cases =>
    obtain same | ⟨typeOne, idle, n, drv⟩ := cases.drv
    · exact absurd (by rw [same]) moved
    · refine ⟨?_, .inr ⟨_, sent, typeOne, idle⟩⟩
      rw [cases.drive]
      by_contra other
      exact moved (by rw [drv, movePhys_get_other other])
  | access _ drv => exact absurd (by rw [drv]) moved
  | store _ _ _ _ _ _ drv =>
    rw [drv] at moved
    exact absurd (Drives.get_set_congr Drive.physicalTrack (by rfl) d) moved
  | select => exact absurd rfl moved
  | @pulse w v word low high =>
    refine ⟨?_, .inl ⟨w, v, rfl, word, low, high⟩⟩
    by_contra other
    have other : d ≠ (sysSelect v s).ctl.drive := other
    obtain ⟨n, drv⟩ := resetPulse_drv (sysSelect v s)
    exact moved (by rw [drv, movePhys_get_other other]; rfl)
  | tick _ keeps => exact absurd (by rw [keeps.drv]; rfl) moved
  | insert b ro => exact absurd (insertDisk_physicalTrack b ro _ d s) moved
  | eject => exact absurd (ejectDisk_slot _ d s).1 moved
  | flush => exact absurd (flushDisk_slot _ d s).1 moved
  | reset => exact absurd rfl moved

/-! ### The image bytes (R60, R221) -/

theorem imageByte_of_image {s t : State} {d : Fin 4} (h : (t.drv.get d).image = (s.drv.get d).image) (a : Nat) :
    t.imageByte d a = s.imageByte d a := by
  rw [State.imageByte, h, State.imageByte]

/-- A store changes no byte but its own. -/
theorem imageByte_of_stored {s t : State} {d : Fin 4} {n : Nat} {v : Byte}
    (drv : t.drv = s.drv.set d (storedSlot (s.drv.get d) n v)) {e : Fin 4} {a : Nat} (other : ¬(e = d ∧ a = n)) :
    t.imageByte e a = s.imageByte e a := by
  rw [State.imageByte, State.imageByte, drv, Drives.get_set]
  split
  · subst_vars
    exact Memory.read_write_other _ v fun ha => other ⟨rfl, ha⟩
  · rfl

/-- Settles O58: a store changes the byte at its address and sets `dirty`, a successful insert replaces its own slot,
and every other operation keeps all the images. -/
theorem imageChangesOnlyByInsertOrDataWrite : Obligations.ImageChangesOnlyByInsertOrDataWrite := by
  intro s t op d a ht changed
  cases perform_cases ht with
  | command _ cases =>
    obtain same | ⟨-, -, n, drv⟩ := cases.drv
    · exact absurd (imageByte_congr same d a) changed
    · exact absurd (imageByte_of_image (by rw [drv, movePhys_image]) a) changed
  | access _ drv => exact absurd (imageByte_congr drv d a) changed
  | @store w v t k n word waiting addr _ _ _ drv =>
    obtain ⟨rfl, rfl⟩ : d = s.ctl.drive ∧ a = n := by
      by_contra other
      exact changed (imageByte_of_stored drv other)
    obtain ⟨active, phase, drq, write⟩ := writeWaiting_some waiting
    have dirty : (t.drv.get s.ctl.drive).dirty = true := by
      rw [drv, Drives.get_set_same]
      rfl
    exact .inr ⟨rfl, dirty, phase, drq, w, v, k, rfl, word, active, write, addr⟩
  | select => exact absurd rfl changed
  | @pulse w v =>
    obtain ⟨n, drv⟩ := resetPulse_drv (sysSelect v s)
    exact absurd (imageByte_of_image (by rw [drv, movePhys_image]; rfl) a) changed
  | tick _ keeps => exact absurd (imageByte_congr keeps.drv d a) changed
  | @insert e b ro =>
    by_cases same : d = e
    · exact .inl ⟨b, ro, by rw [same]⟩
    · exact absurd (imageByte_of_image (by rw [insertDisk_get_other b ro same]) a) changed
  | eject => exact absurd (imageByte_of_image (ejectDisk_slot _ d s).2 a) changed
  | flush => exact absurd (imageByte_of_image (flushDisk_slot _ d s).2 a) changed
  | reset => exact absurd rfl changed

end Sys2Proof.Machine

/-! PROOFS. The status byte (O26, O28): the eight bits of a byte built from flags, the two layouts bit by bit, and
what the invariants leave of them. -/

namespace Sys2Proof.Machine

/-- The bits of a byte, bit 0 first. -/
theorem byteOfBits_bits (b7 b6 b5 b4 b3 b2 b1 b0 : Bool) :
    let v := byteOfBits b7 b6 b5 b4 b3 b2 b1 b0
    v.getLsbD 0 = b0 ∧ v.getLsbD 1 = b1 ∧ v.getLsbD 2 = b2 ∧ v.getLsbD 3 = b3 ∧ v.getLsbD 4 = b4 ∧
      v.getLsbD 5 = b5 ∧ v.getLsbD 6 = b6 ∧ v.getLsbD 7 = b7 := by
  revert b7 b6 b5 b4 b3 b2 b1 b0
  decide

/-- Settles O26: either layout is a byte of eight flags (`byteOfBits_bits`), bit 7 the negation of `Ready()`. -/
theorem statusByteBitByBit : Obligations.StatusByteBitByBit := by
  constructor
  · intro s family
    rw [status_of_typeI family]
    exact byteOfBits_bits _ _ _ _ _ _ _ _
  · intro s family
    rw [status_of_typeII_III family]
    exact byteOfBits_bits _ _ _ _ _ _ _ _

/-- INTRQ and DRQ are never both set (R44, R258). -/
theorem Inv.not_intrq_and_drq {s : State} (h : Inv s) : ¬(s.ctl.intrq = true ∧ s.ctl.drq = true) := by
  rintro ⟨intrq, drq⟩
  have busy : s.ctl.phase ≠ .idle := by
    rw [h.ctl.drqTransferring drq]
    decide
  rw [h.ctl.busyNoIntrq busy] at intrq
  cases intrq

/-- No bit is latched under the Type I layout (R44 item 10). -/
theorem Inv.typeI_latches {s : State} (h : Inv s) (family : s.ctl.family = .typeI) :
    s.ctl.stCrc = false ∧ s.ctl.stErr4 = false := by
  have clean := (h.ctl.typeIClean family).1
  simp only [anyLatched, Bool.or_eq_false_iff] at clean
  obtain ⟨⟨⟨⟨-, crc⟩, err4⟩, -⟩, -⟩ := clean
  exact ⟨crc, err4⟩

/-- Settles O28: the bits are those of O26; the latches are clear under the Type I layout, DRQ is raised in
Transferring alone, and INTRQ is clear while Busy. -/
theorem statusBitsThatExcludeEachOther : Obligations.StatusBitsThatExcludeEachOther := by
  intro s h
  obtain ⟨typeI, typeII_III⟩ := statusByteBitByBit
  refine ⟨fun family => ?_, fun family motorOff => ?_, fun family => ?_, ?_⟩
  · obtain ⟨-, bit1, -, bit3, bit4, -⟩ := typeI s family
    obtain ⟨crc, err4⟩ := h.typeI_latches family
    exact ⟨bit1, bit3.trans crc, bit4.trans err4⟩
  · obtain ⟨-, -, -, -, -, bit5, -, bit7⟩ := typeI s family
    exact ⟨bit5.trans motorOff, by rw [bit7, motorOff]; rfl⟩
  · obtain ⟨bit0, bit1, -⟩ := typeII_III s family
    intro drq
    rw [bit0, h.ctl.drqTransferring (bit1.symm.trans drq)]
    decide
  · rw [readSys_getLsbD_seven, readSys_getLsbD_six]
    exact h.not_intrq_and_drq

end Sys2Proof.Machine

/-! PROOFS. Ticks (O17, O41 to O44, O47, O48): when a tick goes on, which firing a deadline is in each phase, and what
asking for a byte answers, case by case. -/

namespace Sys2Proof.Machine

/-! ### A tick, by its loop (R170) -/

theorem perform_tick_of_fireDue {s t : State} {abs : Nat} (delta : Nat) (ahead : s.ctl.now ≤ abs)
    (h : fireDue (tickFuel s) (setNow abs s) = .ok t) : perform (.tick abs delta) s = .next t := by
  rw [perform, tick, if_neg (Nat.not_lt.2 ahead), h]

/-- Two states whose loops answer alike tick alike. -/
theorem perform_tick_congr {s t : State} {abs : Nat} (delta delta' : Nat) (hs : s.ctl.now ≤ abs)
    (ht : t.ctl.now ≤ abs)
    (same : fireDue (tickFuel s) (setNow abs s) = fireDue (tickFuel t) (setNow abs t)) :
    perform (.tick abs delta) s = perform (.tick abs delta') t := by
  rw [perform, perform, tick, tick, if_neg (Nat.not_lt.2 hs), if_neg (Nat.not_lt.2 ht), same]

/-- A tick whose one firing leaves no deadline due. -/
theorem perform_tick_of_fire {s t : State} {abs d : Nat} (delta : Nat) (ahead : s.ctl.now ≤ abs)
    (hd : s.ctl.deadline = some d) (due : d ≤ abs) (hf : fire d (setNow abs s) = .ok t)
    (settled : dueDeadline t = none) : perform (.tick abs delta) s = .next t := by
  refine perform_tick_of_fireDue delta ahead ?_
  have reached : dueDeadline (setNow abs s) = some d := dueDeadline_some.2 ⟨hd, due⟩
  obtain ⟨n, hn⟩ := Nat.exists_eq_succ_of_ne_zero (tickFuel_pos s).ne'
  rw [hn, fireDue_next n reached, hf]
  exact fireDue_done n settled

theorem dueDeadline_of_none {s : State} (h : s.ctl.deadline = none) : dueDeadline s = none :=
  dueDeadline_none.2 (by simp [h])

/-- Settles O47: a tick has at least as much fuel as there are firings to come, so its bound is never met. -/
theorem tickFiresBoundedlyManyDeadlines : Obligations.TickFiresBoundedlyManyDeadlines := by
  intro s abs delta h
  have enough : fireDue (tickFuel s) (setNow abs s) ≠ .error .tickBound :=
    fireDue_not_tickBound (firingsLeft_le_tickFuel (setNow abs s))
  rw [perform, tick] at h
  split at h
  · cases h
  · split at h <;> cases h
    exact enough ‹_›

/-- Settles O48: what was due at `a` is what is first due at `b` (`fireDue_later`), and a firing leaves the active
command, so both ticks have the same fuel. -/
theorem oneTickEqualsTwo : Obligations.OneTickEqualsTwo := by
  intro s a b delta₁ delta₂ delta₃ h ha hab
  obtain ⟨u, hu, -⟩ := tick_inv (delta := delta₁) h ha
  have first : fireDue (tickFuel s) (setNow a s) = .ok u := perform_tick_next (delta := delta₁) hu
  have keeps := fireDue_keeps first
  have fuel : tickFuel u = tickFuel s := by
    rw [tickFuel, tickFuel, activeTransfer_congr keeps.CR]
    rfl
  have now : u.ctl.now = a := keeps.now
  refine ⟨u, hu, perform_tick_congr delta₂ delta₃ (now.trans_le hab) (ha.trans hab) ?_⟩
  rw [fuel]
  exact (fireDue_later hab first (firingsLeft_le_tickFuel s)).1.symm

/-- Settles O41: the loop finds no deadline due. -/
theorem tickBeforeTheDeadlineMovesOnlyTheClock : Obligations.TickBeforeTheDeadlineMovesOnlyTheClock := by
  intro s abs delta ahead before
  have settled : dueDeadline (setNow abs s) = none := dueDeadline_none.2 before
  exact perform_tick_of_fireDue delta ahead (fireDue_done _ settled)

/-! ### The firing of a deadline, phase by phase (R171) -/

theorem fire_of_settle {s : State} (d : Nat) (hp : s.ctl.phase = .searching)
    (hv : isTypeOne (activeVariant s) = true) : fire d s = .ok (typeOneDone s) := by
  simp only [fire, hp, hv, if_true]

theorem fire_of_search {s : State} {k : Transfer} (d : Nat) (hp : s.ctl.phase = .searching)
    (hk : activeTransfer s = some k) : fire d s = nextByte k d (enterTransferring k s) := by
  have other : isTypeOne (activeVariant s) = false := transferOf_isTypeOne hk
  simp [fire, hp, other, hk, beginTransfer]

theorem fire_of_gap {s : State} {k : Transfer} (d : Nat) (hp : s.ctl.phase = .transferring)
    (hk : activeTransfer s = some k) (hdrq : s.ctl.drq = false) : fire d s = nextByte k d s := by
  simp [fire, hp, hk, hdrq]

theorem fire_of_loss {s : State} {k : Transfer} (d : Nat) (hp : s.ctl.phase = .transferring)
    (hk : activeTransfer s = some k) (hdrq : s.ctl.drq = true) (more : s.ctl.byteIndex + 1 ≠ xferLen k) :
    fire d s = nextByte k d (advance (raiseLostData s)) := by
  have lost : fire d s = lostByte k d s := by simp [fire, hp, hk, hdrq]
  rw [lost, lostByte_eq, if_neg more]

/-- Settles O17: the settle's deadline is the only one, and its firing leaves none. -/
theorem settleEndsAtItsDeadline : Obligations.SettleEndsAtItsDeadline := by
  intro s abs delta d hp hv hd ahead due
  exact perform_tick_of_fire delta ahead hd due (fire_of_settle (s := setNow abs s) d hp hv)
    (dueDeadline_of_none rfl)

/-! ### The active command at a completion -/

/-- The active command is a Read-Address when its transfer is. -/
theorem activeVariant_eq_readAddress {s : State} {k : Transfer} (hk : activeTransfer s = some k) :
    activeVariant s = .readAddress ↔ k = .readAddress := by
  rw [activeTransfer] at hk
  generalize activeVariant s = v at hk
  cases v <;> simp only [transferOf, reduceCtorEq, Option.some.injEq] at hk <;> subst hk <;> decide

/-- R180 for a transfer: the quirk is that of Read-Address (R153). -/
theorem complete_of_transfer {s : State} {k : Transfer} (hk : activeTransfer s = some k) :
    complete s = { s with ctl := { s.ctl with
      phase := .idle, deadline := none, drq := false, intrq := true
      SR := if k = .readAddress then s.ctl.idBuf.track else s.ctl.SR } } := by
  simp only [complete, activeVariant_eq_readAddress hk]

/-- Record-not-found ends an image transfer, whose sector register stays. -/
theorem raiseRecordNotFound_of_image {s : State} {k : Transfer} (hk : activeTransfer s = some k)
    (image : k ≠ .readAddress) :
    raiseRecordNotFound s = { s with ctl := { s.ctl with
      stErr4 := true, phase := .idle, deadline := none, drq := false, intrq := true } } := by
  have active : activeTransfer { s with ctl := { s.ctl with stErr4 := true } } = some k := hk
  rw [raiseRecordNotFound, complete_of_transfer active, if_neg image]

/-! ### A byte asked for (R174, R175) -/

theorem nextByte_of_idByte {d : Nat} {s : State} {r : Byte} (h : idByte s.ctl.idBuf s.ctl.byteIndex = some r) :
    nextByte .readAddress d s = .ok (offer r d s) := by
  rw [nextByte, presentId, h]

section ImageByte

variable {k : Transfer} {s : State} (d : Nat)

theorem nextByte_of_read (hk : k = .readSector ∨ k = .readTrack) (disk : s.selected.hasDisk = true) {a : Nat}
    (addr : xferAddr k s.ctl.byteIndex s = some a) :
    nextByte k d s = .ok (offer (s.imageByte s.ctl.drive a) d s) := by
  have image : nextByte k d s = .ok (presentImage k d s) := by obtain rfl | rfl := hk <;> rfl
  have byte := imgRead_eq_some.2 ⟨a, rfl, disk, rfl⟩
  rw [image, presentImage, addr, byte]

theorem nextByte_of_write (hk : k = .writeSector ∨ k = .writeTrack) (disk : s.selected.hasDisk = true)
    (addr : (xferAddr k s.ctl.byteIndex s).isSome = true) : nextByte k d s = .ok (raiseDrq d s) := by
  have asked : nextByte k d s = .ok (request k d s) := by obtain rfl | rfl := hk <;> rfl
  have ok : imgOk s.ctl.drive (xferAddr k s.ctl.byteIndex s) s = true := Bool.and_eq_true_iff.2 ⟨disk, addr⟩
  rw [asked, request, if_pos ok]

/-- Without a disk or an address an image byte is Record-not-found (R254). -/
theorem nextByte_of_missing (image : k ≠ .readAddress)
    (missing : s.selected.hasDisk = false ∨ xferAddr k s.ctl.byteIndex s = none) :
    nextByte k d s = .ok (raiseRecordNotFound s) := by
  have noRead : imgRead s.ctl.drive (xferAddr k s.ctl.byteIndex s) s = none := imgRead_eq_none.2 missing.symm
  have noWrite : imgOk s.ctl.drive (xferAddr k s.ctl.byteIndex s) s = false := by
    obtain disk | addr := missing
    · exact Bool.and_eq_false_iff.2 (.inl disk)
    · simp [imgOk, addr]
  cases k
  case readAddress => exact absurd rfl image
  case readSector | readTrack => simp only [nextByte, presentImage, noRead]
  case writeSector | writeTrack => simp only [nextByte, request, noWrite, Bool.false_eq_true, if_false]

end ImageByte

/-- What `nextByte` answers is the byte asked for. -/
theorem nextByte_byteRaised {k : Transfer} {d : Nat} {u t : State} (hk : activeTransfer u = some k)
    (h : nextByte k d u = .ok t) : byteRaised k d u t := by
  refine ⟨?_, ?_, ?_, ?_⟩
  · rintro rfl r byte
    exact Except.ok.inj (h.symm.trans (nextByte_of_idByte byte))
  · intro read disk a addr
    exact Except.ok.inj (h.symm.trans (nextByte_of_read d read disk addr))
  · intro write disk addr
    exact Except.ok.inj (h.symm.trans (nextByte_of_write d write disk addr))
  · intro image missing
    rw [← raiseRecordNotFound_of_image hk image]
    exact Except.ok.inj (h.symm.trans (nextByte_of_missing d image missing))

/-- A byte asked for at the present time leaves nothing due. -/
theorem nextByte_settled {k : Transfer} {u t : State} (hT : 1 ≤ u.cfg.tByte)
    (h : nextByte k u.ctl.now u = .ok t) : dueDeadline t = none := by
  obtain rfl | ⟨r, rfl⟩ := nextByte_ok h
  · exact dueDeadline_of_none rfl
  · refine dueDeadline_none.2 fun e he => ?_
    cases he
    exact Nat.lt_add_of_pos_right hT

/-- A tick to a deadline that asks for a byte of the transfer. -/
theorem perform_tick_of_nextByte {s u : State} {k : Transfer} {d : Nat} (delta : Nat)
    (hd : s.ctl.deadline = some d) (ahead : s.ctl.now ≤ d) (hf : fire d (setNow d s) = nextByte k d u)
    (now : u.ctl.now = d) (hT : 1 ≤ u.cfg.tByte) (hk : activeTransfer u = some k)
    (left : u.ctl.byteIndex < xferLen k) :
    ∃ t, perform (.tick d delta) s = .next t ∧ byteRaised k d u t := by
  obtain ⟨t, ht⟩ := nextByte_total d left
  refine ⟨t, perform_tick_of_fire delta ahead hd le_rfl (hf.trans ht) ?_, nextByte_byteRaised hk ht⟩
  exact nextByte_settled hT (now.symm ▸ ht)

/-- Settles O42: the firing enters Transferring and asks for byte 0. -/
theorem searchDeadlineAsksForTheFirstByte : Obligations.SearchDeadlineAsksForTheFirstByte := by
  intro s k d delta hp hk hd ahead hT
  exact perform_tick_of_nextByte delta hd ahead (fire_of_search (s := setNow d s) d hp hk) rfl hT hk (xferLen_pos k)

/-- Settles O43: with DRQ clear the firing asks for the byte at the index. -/
theorem interByteDeadlineAsksForTheNextByte : Obligations.InterByteDeadlineAsksForTheNextByte := by
  intro s k d delta hp hk left hdrq hd ahead hT
  exact perform_tick_of_nextByte delta hd ahead (fire_of_gap (s := setNow d s) d hp hk hdrq) rfl hT hk left

/-- Settles O44: with DRQ set the firing latches Lost-data and advances; then it asks for the next byte, or completes
after the last. -/
theorem unservicedByteIsLost : Obligations.UnservicedByteIsLost := by
  intro s k d delta hp hk left hdrq hd ahead hT
  by_cases last : s.ctl.byteIndex + 1 = xferLen k
  · have active : activeTransfer (advance (raiseLostData (setNow d s))) = some k := hk
    have fired := fire_of_last (s := setNow d s) d hk hp hdrq last
    refine ⟨_, perform_tick_of_fire delta ahead hd le_rfl fired (dueDeadline_of_none rfl),
      fun more => absurd last more, fun _ => complete_of_transfer active⟩
  · have left' : s.ctl.byteIndex + 1 < xferLen k := by omega
    obtain ⟨t, ht, asked⟩ := perform_tick_of_nextByte (u := advance (raiseLostData (setNow d s))) delta hd ahead
      (fire_of_loss (s := setNow d s) d hp hk hdrq last) rfl hT hk left'
    exact ⟨t, ht, fun _ => asked, fun ended => absurd ended last⟩

end Sys2Proof.Machine

/-! PROOFS. A transfer nobody services (O49). `Unserviced k d n s u` says that `u` is `s` with byte `n` of `k` waiting
since `d + n * T_BYTE`; each firing leads from one byte to the next, so the loop reaches the last byte that is due. -/

namespace Sys2Proof.Machine

/-! ### The byte a valid transfer is asked for -/

/-- Every byte of transfer `k` can be asked for: an image transfer has a disk and an address for each (R217). -/
def transferValid (k : Transfer) (s : State) : Prop :=
  k ≠ .readAddress → s.selected.hasDisk = true ∧ ∀ i, i < xferLen k → (xferAddr k i s).isSome = true

/-- `r` is byte `i` of transfer `k` as the host reads it: the image's at its address, or that of the ID field. -/
structure IsByte (k : Transfer) (i : Nat) (s : State) (ids : IdBuf) (r : Byte) : Prop where
  image : ∀ a, isReadTransfer k = true → xferAddr k i s = some a → r = s.imageByte s.ctl.drive a
  id : ∀ x, k = .readAddress → idByte ids i = some x → r = x

/-- A byte of a valid transfer is offered. -/
theorem nextByte_of_valid {k : Transfer} {s : State} (d : Nat) (valid : transferValid k s)
    (left : s.ctl.byteIndex < xferLen k) :
    ∃ r, nextByte k d s = .ok (offer r d s) ∧ IsByte k s.ctl.byteIndex s s.ctl.idBuf r := by
  by_cases hid : k = .readAddress
  · subst hid
    obtain ⟨r, byte⟩ : ∃ r, idByte s.ctl.idBuf s.ctl.byteIndex = some r := by
      refine Option.ne_none_iff_exists'.1 fun none => ?_
      have := idByte_none none
      rw [xferLen] at left
      omega
    exact ⟨r, nextByte_of_idByte byte, ⟨fun _ _ addr => (nomatch addr),
      fun x _ hx => Option.some.inj (byte.symm.trans hx)⟩⟩
  · obtain ⟨disk, addrs⟩ := valid hid
    have addr := addrs _ left
    by_cases read : isReadTransfer k = true
    · have hk : k = .readSector ∨ k = .readTrack := by
        cases k <;> simp_all [isReadTransfer]
      obtain ⟨a, ha⟩ := Option.isSome_iff_exists.1 addr
      refine ⟨_, nextByte_of_read d hk disk ha, fun b _ hb => ?_, fun _ h => absurd h hid⟩
      rw [Option.some.inj (ha.symm.trans hb)]
    · have hk : k = .writeSector ∨ k = .writeTrack := by
        cases k <;> simp_all [isReadTransfer]
      exact ⟨s.ctl.DR, nextByte_of_write d hk disk addr, fun _ h => absurd h read, fun _ h => absurd h hid⟩

/-! ### The bytes one after another -/

/-- `u` is `s` in transfer `k` since time `d`, bytes 0 to `n - 1` lost and byte `n` waiting. -/
structure Unserviced (k : Transfer) (d n : Nat) (s u : State) : Prop where
  keeps : FiringKeeps s u
  SR : u.ctl.SR = s.ctl.SR
  phase : u.ctl.phase = .transferring
  drq : u.ctl.drq = true
  intrq : u.ctl.intrq = s.ctl.intrq
  byteIndex : u.ctl.byteIndex = n
  deadline : u.ctl.deadline = some (d + (n + 1) * s.cfg.tByte)
  lost : u.ctl.stLost = true ↔ s.ctl.stLost = true ∨ 0 < n
  idBuf : k = .readAddress → u.ctl.idBuf = idFields s
  byte : IsByte k n s (idFields s) u.ctl.DR

/-- What a transfer's bytes are does not change while nobody services it. -/
theorem transferValid_congr {k : Transfer} {s u : State} (keeps : FiringKeeps s u) (sr : u.ctl.SR = s.ctl.SR)
    (valid : transferValid k s) : transferValid k u := by
  intro image
  obtain ⟨disk, addrs⟩ := valid image
  refine ⟨by rwa [selected_congr keeps.drv keeps.drive], fun i hi => ?_⟩
  rw [xferAddr_congr k i keeps.TR sr keeps.side]
  exact addrs i hi

theorem IsByte.of_keeps {k : Transfer} {i : Nat} {s u : State} {r : Byte} (keeps : FiringKeeps s u)
    (sr : u.ctl.SR = s.ctl.SR) (ids : k = .readAddress → u.ctl.idBuf = idFields s)
    (h : IsByte k i u u.ctl.idBuf r) : IsByte k i s (idFields s) r := by
  refine ⟨fun a read addr => ?_, fun x hid hx => h.id x hid (by rwa [ids hid])⟩
  have byte := h.image a read (by rwa [xferAddr_congr k i keeps.TR sr keeps.side])
  rwa [keeps.drive, imageByte_congr keeps.drv] at byte

/-- A byte asked for on the way is the next one to wait. -/
theorem Unserviced.of_nextByte {k : Transfer} {d n : Nat} {s u : State} (valid : transferValid k s)
    (keeps : FiringKeeps s u) (sr : u.ctl.SR = s.ctl.SR) (phase : u.ctl.phase = .transferring)
    (intrq : u.ctl.intrq = s.ctl.intrq) (index : u.ctl.byteIndex = n) (left : n < xferLen k)
    (lost : u.ctl.stLost = true ↔ s.ctl.stLost = true ∨ 0 < n)
    (ids : k = .readAddress → u.ctl.idBuf = idFields s) :
    ∃ v, nextByte k (d + n * s.cfg.tByte) u = .ok v ∧ Unserviced k d n s v := by
  obtain ⟨r, hr, byte⟩ := nextByte_of_valid (d + n * s.cfg.tByte) (transferValid_congr keeps sr valid)
    (index.symm ▸ left)
  have window : d + n * s.cfg.tByte + u.cfg.tByte = d + (n + 1) * s.cfg.tByte := by
    rw [keeps.cfg]
    ring
  refine ⟨_, hr, keeps.trans (nextByte_keeps hr), sr, phase, rfl, intrq, index, congrArg some window, lost, ids, ?_⟩
  exact IsByte.of_keeps keeps sr ids (index ▸ byte)

/-- What a loop does after a firing it has fuel for. -/
theorem fireDue_of_fire {u v : State} {e m : Nat} (due : dueDeadline u = some e) (hf : fire e u = .ok v)
    (fuel : firingsLeft u ≤ m) : fireDue m u = fireDue m v ∧ firingsLeft v ≤ m := by
  have fewer := fire_decreases (dueDeadline_some.1 due).1 hf
  obtain ⟨m, rfl⟩ : ∃ j, m = j + 1 := ⟨m - 1, by omega⟩
  rw [fireDue_next m due, hf]
  exact ⟨fireDue_fuel (by omega) (by omega), by omega⟩

section Loop

variable {k : Transfer} {d : Nat} {s : State} (hk : activeTransfer s = some k) (valid : transferValid k s)

include hk valid

/-- The search deadline leaves byte 0 waiting. -/
theorem fire_search_unserviced (hp : s.ctl.phase = .searching) :
    ∃ v, fire d s = .ok v ∧ Unserviced k d 0 s v := by
  have keeps : FiringKeeps s (enterTransferring k s) := by constructor <;> rfl
  rw [fire_of_search d hp hk]
  have first := Unserviced.of_nextByte (d := d) (n := 0) valid keeps rfl rfl rfl rfl (xferLen_pos k) (by simp)
    fun hid => if_pos hid
  rwa [Nat.zero_mul, Nat.add_zero] at first

/-- Losing a byte that is not the last leaves the next one waiting. -/
theorem Unserviced.fire_next {n : Nat} {u : State} (h : Unserviced k d n s u) (more : n + 1 < xferLen k) :
    ∃ v, fire (d + (n + 1) * s.cfg.tByte) u = .ok v ∧ Unserviced k d (n + 1) s v := by
  have active : activeTransfer u = some k := (activeTransfer_congr h.keeps.CR).trans hk
  have keeps : FiringKeeps u (advance (raiseLostData u)) := by constructor <;> rfl
  have notLast : u.ctl.byteIndex + 1 ≠ xferLen k := by
    rw [h.byteIndex]
    omega
  rw [fire_of_loss _ h.phase active h.drq notLast]
  exact Unserviced.of_nextByte valid (h.keeps.trans keeps) h.SR h.phase h.intrq (congrArg (· + 1) h.byteIndex) more
    (by simp) h.idBuf

/-- The loop comes to every byte whose turn it is by now. -/
theorem fireDue_reaches_byte (hp : s.ctl.phase = .searching) (hd : s.ctl.deadline = some d) {n : Nat}
    (left : n < xferLen k) (turn : d + n * s.cfg.tByte ≤ s.ctl.now) :
    ∃ u, Unserviced k d n s u ∧
      fireDue (tickFuel s) s = fireDue (tickFuel s) u ∧ firingsLeft u ≤ tickFuel s := by
  induction n with
  | zero =>
    obtain ⟨u, hu, waiting⟩ := fire_search_unserviced (d := d) hk valid hp
    have due : dueDeadline s = some d := dueDeadline_some.2 ⟨hd, by omega⟩
    exact ⟨u, waiting, fireDue_of_fire due hu (firingsLeft_le_tickFuel s)⟩
  | succ n ih =>
    have earlier : d + n * s.cfg.tByte ≤ s.ctl.now := by
      rw [Nat.succ_mul] at turn
      omega
    obtain ⟨u, waiting, reached, fuel⟩ := ih (by omega) earlier
    obtain ⟨v, hv, waiting'⟩ := waiting.fire_next hk valid left
    have due : dueDeadline u = some (d + (n + 1) * s.cfg.tByte) :=
      dueDeadline_some.2 ⟨waiting.deadline, waiting.keeps.now.symm ▸ turn⟩
    obtain ⟨same, fuel'⟩ := fireDue_of_fire due hv fuel
    exact ⟨v, waiting', reached.trans same, fuel'⟩

/-! ### The tick (R181, R296) -/

/-- While bytes are left, the one whose turn it is waits. -/
theorem perform_tick_unserviced_waiting (hp : s.ctl.phase = .searching) (hd : s.ctl.deadline = some d)
    {abs : Nat} (delta : Nat) (ahead : s.ctl.now ≤ abs) (due : d ≤ abs) (hT : 1 ≤ s.cfg.tByte)
    (left : (abs - d) / s.cfg.tByte < xferLen k) :
    ∃ u, perform (.tick abs delta) s = .next u ∧
      Unserviced k d ((abs - d) / s.cfg.tByte) (setNow abs s) u := by
  have turn : d + (abs - d) / s.cfg.tByte * s.cfg.tByte ≤ abs := by
    have := Nat.div_mul_le_self (abs - d) s.cfg.tByte
    omega
  obtain ⟨u, waiting, reached, -⟩ := fireDue_reaches_byte (s := setNow abs s) hk valid hp hd left turn
  have settled : dueDeadline u = none := by
    refine dueDeadline_none.2 fun e he => ?_
    cases waiting.deadline.symm.trans he
    have now : u.ctl.now = abs := waiting.keeps.now
    have := Nat.lt_mul_div_succ (abs - d) hT
    rw [setNow_cfg, Nat.mul_comm]
    omega
  exact ⟨u, perform_tick_of_fireDue delta ahead (reached.trans (fireDue_done _ settled)), waiting⟩

/-- After the last byte's window the transfer has completed. -/
theorem perform_tick_unserviced_ended (hp : s.ctl.phase = .searching) (hd : s.ctl.deadline = some d)
    {abs : Nat} (delta : Nat) (ahead : s.ctl.now ≤ abs) (due : d ≤ abs)
    (ended : xferLen k ≤ (abs - d) / s.cfg.tByte) :
    ∃ u, perform (.tick abs delta) s = .next (complete (advance (raiseLostData u))) ∧
      Unserviced k d (xferLen k - 1) (setNow abs s) u := by
  have last : xferLen k - 1 + 1 = xferLen k := Nat.sub_add_cancel (xferLen_pos k)
  have turn : d + (xferLen k - 1 + 1) * s.cfg.tByte ≤ abs := by
    have := Nat.mul_le_of_le_div _ _ _ ended
    rw [last]
    omega
  have turn' : d + (xferLen k - 1) * s.cfg.tByte ≤ abs := by
    rw [Nat.succ_mul] at turn
    omega
  obtain ⟨u, waiting, reached, fuel⟩ :=
    fireDue_reaches_byte (s := setNow abs s) hk valid hp hd (Nat.sub_lt (xferLen_pos k) Nat.one_pos) turn'
  have fired := fire_of_last (d + (xferLen k - 1 + 1) * s.cfg.tByte)
    ((activeTransfer_congr waiting.keeps.CR).trans hk) waiting.phase waiting.drq (waiting.byteIndex.symm ▸ last)
  have lastDue : dueDeadline u = some (d + (xferLen k - 1 + 1) * s.cfg.tByte) :=
    dueDeadline_some.2 ⟨waiting.deadline, waiting.keeps.now.symm ▸ turn⟩
  have completed := (fireDue_of_fire lastDue fired fuel).1.trans (fireDue_done _ (dueDeadline_of_none rfl))
  exact ⟨u, perform_tick_of_fireDue delta ahead (reached.trans completed), waiting⟩

end Loop

/-- Settles O49: the loop stops at the byte whose turn it is, or has lost the last one and completed. -/
theorem unservicedTransferRunsToItsEnd : Obligations.UnservicedTransferRunsToItsEnd := by
  intro s k d abs delta inv hp hk hd due valid
  have ahead : s.ctl.now ≤ abs := ((inv.ahead d hd).trans_le due).le
  have hT : 1 ≤ s.cfg.tByte := inv.delays.2.2
  have quiet : s.ctl.intrq = false := inv.ctl.busyNoIntrq (inv.ctl.deadline_busy hd)
  by_cases left : (abs - d) / s.cfg.tByte < xferLen k
  · obtain ⟨u, hu, waiting⟩ := perform_tick_unserviced_waiting hk valid hp hd delta ahead due hT left
    have lost : 0 < (abs - d) / s.cfg.tByte ↔ s.cfg.tByte ≤ abs - d := Nat.div_pos_iff.trans (and_iff_right hT)
    refine ⟨u, hu, waiting.keeps.now, waiting.keeps.drv, fun _ => ?_, fun ended => absurd left (by omega)⟩
    exact ⟨waiting.phase, waiting.drq, waiting.intrq.trans quiet, waiting.byteIndex, waiting.deadline,
      waiting.lost.trans (or_congr_right lost), waiting.byte.image, fun r hid hr => waiting.byte.id r hid hr⟩
  · obtain ⟨u, hu, waiting⟩ := perform_tick_unserviced_ended hk valid hp hd delta ahead due (Nat.not_lt.1 left)
    have active : activeTransfer (advance (raiseLostData u)) = some k :=
      (activeTransfer_congr waiting.keeps.CR).trans hk
    have index : (advance (raiseLostData u)).ctl.byteIndex = xferLen k := by
      have := xferLen_pos k
      simp only [advance_ctl, raiseLostData_ctl, waiting.byteIndex]
      omega
    rw [complete_of_transfer active] at hu
    refine ⟨_, hu, waiting.keeps.now, waiting.keeps.drv, fun more => absurd more left, fun _ => ?_⟩
    refine ⟨rfl, rfl, rfl, rfl, rfl, index, ?_⟩
    split
    · exact congrArg IdBuf.track (waiting.idBuf ‹_›)
    · exact waiting.SR

end Sys2Proof.Machine

/-! PROOFS. Commands accepted while Idle (O12 to O16, O18 to O22): what each Type I movement does, and the start of a
Type II or III command in its three cases. -/

namespace Sys2Proof.Machine

@[simp] theorem whenIdle_of_idle {f : State → State} {s : State} (idle : s.ctl.phase = .idle) :
    whenIdle f s = f s :=
  if_pos idle

/-! ### The movement of a Type I command (R121 to R126) -/

/-- `t` is `s` with the track register, the step direction and the selected head as given. -/
structure Moved (s t : State) (tr : Byte) (dir : StepDir) (head : Nat) : Prop where
  ctl : t.ctl = { s.ctl with TR := tr, stepDir := dir }
  drv : t.drv = s.drv.set s.ctl.drive { s.selected with physicalTrack := head }
  cfg : t.cfg = s.cfg
  input : t.input = s.input
  trace : t.trace = s.trace

/-- Restore takes the head all the way back (R121, R216). -/
theorem clampTrack_restore (p : Nat) : clampTrack (Int.ofNat p + -Int.ofNat p) = 0 := by
  rw [Int.add_right_neg]
  rfl

theorem doRestore_moved (s : State) : Moved s (doRestore s) 0x00#8 .Out 0 := by
  refine ⟨rfl, ?_, rfl, rfl, rfl⟩
  rw [← clampTrack_restore s.selected.physicalTrack]
  rfl

/-- The direction of a seek is the sign of its move, and the stored one when there is none (R122). -/
theorem seekDir_eq (m n : Nat) (dir : StepDir) :
    (if Int.ofNat m - Int.ofNat n > 0 then StepDir.In else if Int.ofNat m - Int.ofNat n < 0 then .Out else dir) =
      if n < m then .In else if m < n then .Out else dir := by
  have inward : Int.ofNat m - Int.ofNat n > 0 ↔ n < m := by simp only [Int.ofNat_eq_natCast]; omega
  have outward : Int.ofNat m - Int.ofNat n < 0 ↔ m < n := by simp only [Int.ofNat_eq_natCast]; omega
  simp only [inward, outward]

theorem doSeek_moved (s : State) :
    Moved s (doSeek s) s.ctl.DR
      (if s.ctl.TR.toNat < s.ctl.DR.toNat then .In
        else if s.ctl.DR.toNat < s.ctl.TR.toNat then .Out else s.ctl.stepDir)
      (headAfter s.selected.physicalTrack ((s.ctl.DR.toNat : Int) - (s.ctl.TR.toNat : Int))) := by
  refine ⟨?_, rfl, rfl, rfl, rfl⟩
  rw [← seekDir_eq]
  rfl

/-- R126: in wraps at 255 and out holds at 0. -/
theorem stepTrackRegister_eq (dir : StepDir) (tr : Byte) :
    stepTrackRegister dir tr = registerAfterStep true dir tr := by
  cases dir <;> revert tr <;> decide

theorem stepCore_moved (dir : StepDir) (u : Bool) (s : State) :
    Moved s (stepCore dir u s) (registerAfterStep u dir s.ctl.TR) s.ctl.stepDir
      (headAfterStep dir s.selected.physicalTrack) := by
  have head : clampTrack (Int.ofNat s.selected.physicalTrack + stepDelta dir) =
      headAfterStep dir s.selected.physicalTrack := by cases dir <;> rfl
  cases u with
  | true =>
    rw [← stepTrackRegister_eq, ← head]
    exact ⟨rfl, rfl, rfl, rfl, rfl⟩
  | false =>
    rw [← head]
    exact ⟨rfl, rfl, rfl, rfl, rfl⟩

/-- Step-In and Step-Out set the direction first (R124, R125). -/
theorem stepCore_moved_toward (dir : StepDir) (u : Bool) (s : State) :
    Moved s (stepCore dir u { s with ctl := { s.ctl with stepDir := dir } }) (registerAfterStep u dir s.ctl.TR) dir
      (headAfterStep dir s.selected.physicalTrack) := by
  obtain ⟨ctl, drv, cfg, input, trace⟩ := stepCore_moved dir u { s with ctl := { s.ctl with stepDir := dir } }
  exact ⟨ctl, drv, cfg, input, trace⟩

/-! ### A Type I command while Idle (R114, R120) -/

/-- A head that moves changes no byte. -/
theorem bytesKept_of_head {s t : State} {x : Drive} {d : Fin 4} (drv : t.drv = s.drv.set d x)
    (image : x.image = (s.drv.get d).image) : bytesKept s t := by
  intro e a
  refine imageByte_of_image ?_ a
  rw [drv]
  exact Drives.get_set_congr Drive.image image e

/-- The movement is run with the latches and INTRQ cleared and the step rate set, and looks at none of them. -/
theorem typeOneCommand_settleBegun {s : State} {b : Byte} {move : State → State} {tr : Byte} {dir : StepDir}
    {head : Nat} (idle : s.ctl.phase = .idle)
    (moved : let u := acceptPrologue b .typeI s
      let v : State := { u with ctl := { u.ctl with stepRate := fieldR b } }
      Moved v (move v) tr dir head) :
    settleBegun s (typeOneCommand b move s) b (fieldR b) tr dir head := by
  obtain ⟨ctl, drv, cfg, input, trace⟩ := moved
  rw [typeOneCommand, whenIdle_of_idle idle]
  refine ⟨?_, ?_, ?_, bytesKept_of_head drv rfl, cfg, input, trace⟩
  · rw [typeOne, enterSearching_ctl, ctl, cfg]
    rfl
  · rw [State.selected, typeOne, enterSearching_drv, enterSearching_ctl, ctl, drv]
    exact Drives.get_set_same _ _ _
  · intro d other
    rw [typeOne, enterSearching_drv, drv]
    exact Drives.get_set_other _ _ other

/-! The fields read back from a command byte (R83). -/

theorem fieldR_restoreByte (h V : Bool) (r : BitVec 2) : fieldR (restoreByte h V r) = r := by
  revert h V r; decide

theorem fieldR_seekByte (h V : Bool) (r : BitVec 2) : fieldR (seekByte h V r) = r := by
  revert h V r; decide

theorem fields_stepByte (u h V : Bool) (r : BitVec 2) :
    fieldR (stepByte u h V r) = r ∧ fieldU (stepByte u h V r) = u := by
  revert u h V r; decide

theorem fields_stepInByte (u h V : Bool) (r : BitVec 2) :
    fieldR (stepInByte u h V r) = r ∧ fieldU (stepInByte u h V r) = u := by
  revert u h V r; decide

theorem fields_stepOutByte (u h V : Bool) (r : BitVec 2) :
    fieldR (stepOutByte u h V r) = r ∧ fieldU (stepOutByte u h V r) = u := by
  revert u h V r; decide

/-- Settles O12: the movement of a Restore homes the head and the register (`doRestore_moved`). -/
theorem restoreHomesRegisterAndHead : Obligations.RestoreHomesRegisterAndHead := by
  intro h V r s idle
  have begun := typeOneCommand_settleBegun (b := restoreByte h V r) idle (doRestore_moved _)
  rw [fieldR_restoreByte] at begun
  exact ⟨_, rfl, begun⟩

/-- Settles O13: the movement of a Seek is the difference of the registers (`doSeek_moved`). -/
theorem seekMovesByTheRegisterDifference : Obligations.SeekMovesByTheRegisterDifference := by
  intro h V r s idle
  have begun := typeOneCommand_settleBegun (b := seekByte h V r) idle (doSeek_moved _)
  rw [fieldR_seekByte] at begun
  exact ⟨_, rfl, begun⟩

/-- Settles O14: a Step is one step in the stored direction (`stepCore_moved`). -/
theorem stepMovesInTheStoredDirection : Obligations.StepMovesInTheStoredDirection := by
  intro u h V r s idle
  obtain ⟨rate, update⟩ := fields_stepByte u h V r
  have begun := typeOneCommand_settleBegun (b := stepByte u h V r) (move := doStep u) idle (stepCore_moved _ u _)
  rw [rate] at begun
  refine ⟨stepCommand (stepByte u h V r) s, rfl, ?_⟩
  rw [stepCommand, update]
  exact begun

/-- Settles O15: a Step-In is one step inward, the direction set first (`stepCore_moved_toward`). -/
theorem stepInMovesInward : Obligations.StepInMovesInward := by
  intro u h V r s idle
  obtain ⟨rate, update⟩ := fields_stepInByte u h V r
  have begun := typeOneCommand_settleBegun (b := stepInByte u h V r) (move := doStepIn u) idle
    (stepCore_moved_toward .In u _)
  rw [rate] at begun
  refine ⟨stepInCommand (stepInByte u h V r) s, rfl, ?_⟩
  rw [stepInCommand, update]
  exact begun

/-- Settles O16: a Step-Out is one step outward, the direction set first (`stepCore_moved_toward`). -/
theorem stepOutMovesOutward : Obligations.StepOutMovesOutward := by
  intro u h V r s idle
  obtain ⟨rate, update⟩ := fields_stepOutByte u h V r
  have begun := typeOneCommand_settleBegun (b := stepOutByte u h V r) (move := doStepOut u) idle
    (stepCore_moved_toward .Out u _)
  rw [rate] at begun
  refine ⟨stepOutCommand (stepOutByte u h V r) s, rfl, ?_⟩
  rw [stepOutCommand, update]
  exact begun

/-! ### A Type II or III command while Idle (R135, R136, R139) -/

theorem ready_eq_false_iff {s : State} : ready s = false ↔ s.ctl.motorOn = false ∨ s.selected.hasDisk = false :=
  Bool.and_eq_false_iff

section Start

variable {s : State} {b : Byte} (idle : s.ctl.phase = .idle)

include idle

theorem readCommand_searchBegun (isReady : ready s = true) :
    searchBegun s (typeTwoThreeCommand b startRead s) b := by
  have start : startRead (acceptPrologue b .typeII_III s) = startSearch (acceptPrologue b .typeII_III s) :=
    if_pos isReady
  rw [typeTwoThreeCommand, whenIdle_of_idle idle, start]
  exact ⟨rfl, rfl, fun _ _ => rfl, rfl, rfl, rfl⟩

theorem readCommand_endedAtOnce (notReady : ready s = false) :
    endedAtOnce s (typeTwoThreeCommand b startRead s) b false := by
  have start : startRead (acceptPrologue b .typeII_III s) = raiseNotReady (acceptPrologue b .typeII_III s) :=
    if_neg (by rw [Bool.not_eq_true]; exact notReady)
  rw [typeTwoThreeCommand, whenIdle_of_idle idle, start]
  exact ⟨rfl, rfl, fun _ _ => rfl, rfl, rfl, rfl⟩

theorem writeCommand_searchBegun (isReady : ready s = true) (writable : s.selected.readOnly = false) :
    searchBegun s (typeTwoThreeCommand b startWrite s) b := by
  have start : startWrite (acceptPrologue b .typeII_III s) = startSearch (acceptPrologue b .typeII_III s) :=
    (if_pos isReady).trans (if_neg (by rw [Bool.not_eq_true]; exact writable))
  rw [typeTwoThreeCommand, whenIdle_of_idle idle, start]
  exact ⟨rfl, rfl, fun _ _ => rfl, rfl, rfl, rfl⟩

theorem writeCommand_writeProtected (isReady : ready s = true) (readOnly : s.selected.readOnly = true) :
    endedAtOnce s (typeTwoThreeCommand b startWrite s) b true := by
  have start : startWrite (acceptPrologue b .typeII_III s) =
      raiseWriteProtectAtAcceptance (acceptPrologue b .typeII_III s) :=
    (if_pos isReady).trans (if_pos readOnly)
  rw [typeTwoThreeCommand, whenIdle_of_idle idle, start]
  exact ⟨rfl, rfl, fun _ _ => rfl, rfl, rfl, rfl⟩

theorem writeCommand_endedAtOnce (notReady : ready s = false) :
    endedAtOnce s (typeTwoThreeCommand b startWrite s) b false := by
  have start : startWrite (acceptPrologue b .typeII_III s) = raiseNotReady (acceptPrologue b .typeII_III s) :=
    if_neg (by rw [Bool.not_eq_true]; exact notReady)
  rw [typeTwoThreeCommand, whenIdle_of_idle idle, start]
  exact ⟨rfl, rfl, fun _ _ => rfl, rfl, rfl, rfl⟩

end Start

/-- Settles O18: the three read commands are the one start of R135 on a ready drive. -/
theorem readCommandsStartTheSearch : Obligations.ReadCommandsStartTheSearch := by
  intro s idle motor disk
  have isReady := ready_iff.2 ⟨motor, disk⟩
  exact ⟨fun _ _ _ _ _ => ⟨_, rfl, readCommand_searchBegun idle isReady⟩,
    fun _ _ _ _ => ⟨_, rfl, readCommand_searchBegun idle isReady⟩,
    fun _ _ _ _ => ⟨_, rfl, readCommand_searchBegun idle isReady⟩⟩

/-- Settles O19: both write commands pass the readiness and the read-only test. -/
theorem writeCommandsStartTheSearch : Obligations.WriteCommandsStartTheSearch := by
  intro s idle motor disk writable
  have isReady := ready_iff.2 ⟨motor, disk⟩
  exact ⟨fun _ _ _ _ _ => ⟨_, rfl, writeCommand_searchBegun idle isReady writable⟩,
    fun _ _ _ _ => ⟨_, rfl, writeCommand_searchBegun idle isReady writable⟩⟩

/-- Settles O20: all five fail the readiness test, which comes before the read-only test. -/
theorem notReadyEndsTheCommandAtOnce : Obligations.NotReadyEndsTheCommandAtOnce := by
  intro s idle missing
  have notReady := ready_eq_false_iff.2 missing
  exact ⟨fun _ _ _ _ _ => ⟨_, rfl, readCommand_endedAtOnce idle notReady⟩,
    fun _ _ _ _ _ => ⟨_, rfl, writeCommand_endedAtOnce idle notReady⟩,
    fun _ _ _ _ => ⟨_, rfl, readCommand_endedAtOnce idle notReady⟩,
    fun _ _ _ _ => ⟨_, rfl, readCommand_endedAtOnce idle notReady⟩,
    fun _ _ _ _ => ⟨_, rfl, writeCommand_endedAtOnce idle notReady⟩⟩

/-- Settles O21: both write commands pass the readiness test and fail the read-only test. -/
theorem readOnlyMediaEndsAWriteCommandAtOnce : Obligations.ReadOnlyMediaEndsAWriteCommandAtOnce := by
  intro s idle motor disk readOnly
  have isReady := ready_iff.2 ⟨motor, disk⟩
  exact ⟨fun _ _ _ _ _ => ⟨_, rfl, writeCommand_writeProtected idle isReady readOnly⟩,
    fun _ _ _ _ => ⟨_, rfl, writeCommand_writeProtected idle isReady readOnly⟩⟩

/-- Settles O22: a Force-Interrupt tests neither the phase nor its low bits. -/
theorem forceInterruptSucceedsInEveryState : Obligations.ForceInterruptSucceedsInEveryState :=
  fun I s => ⟨forceInterruptCommand (forceIntByte I) s, rfl, rfl, rfl, fun _ _ => rfl, rfl, rfl, rfl⟩

end Sys2Proof.Machine

/-! PROOFS. The registers during a transfer (O31, O33 to O36, O45, O46): a waiting byte taken or supplied, a plain
access, a write that fails, and what Read-Address leaves in the sector register. -/

namespace Sys2Proof.Machine

/-- Settles O31: the write is of one field, and an address depends on the registers and the side alone. -/
theorem trackWriteLoadsOnlyTheTrackRegister : Obligations.TrackWriteLoadsOnlyTheTrackRegister := by
  intro b s
  refine ⟨_, exec_wrTrack b s, rfl, fun _ => rfl, imageByte_congr rfl, fun k i => ?_⟩
  cases k <;> rfl

/-! ### A waiting byte (R176, R177) -/

/-- The end of a consumption before the last byte. -/
theorem consumed_of_more {s : State} {k : Transfer} (more : s.ctl.byteIndex + 1 ≠ xferLen k) :
    consumed k s = { s with ctl := { s.ctl with
      drq := false, byteIndex := s.ctl.byteIndex + 1, deadline := some (s.ctl.now + s.cfg.tByte) } } :=
  if_neg more

/-- The end of a consumption after it. -/
theorem consumed_of_final {s : State} {k : Transfer} (hk : activeTransfer s = some k)
    (last : s.ctl.byteIndex + 1 = xferLen k) :
    consumed k s = { s with ctl := { s.ctl with
      drq := false, byteIndex := s.ctl.byteIndex + 1, phase := .idle, deadline := none, intrq := true
      SR := if k = .readAddress then s.ctl.idBuf.track else s.ctl.SR } } := by
  have active : activeTransfer (advance { s with ctl := { s.ctl with drq := false } }) = some k := hk
  rw [consumed_of_last last, complete_of_transfer active]
  rfl

/-- Settles O33: the byte is the `DR` found, and the rest is the end of a consumption. -/
theorem dataReadConsumesTheWaitingByte : Obligations.DataReadConsumesTheWaitingByte := by
  intro z s k hk read hp hdrq
  obtain ⟨drv, cfg, input, trace, -⟩ := consumed_keeps k s
  refine ⟨(consumed k s).emit (.read s.ctl.DR), ?_, congrArg (_ :: ·) trace, drv, imageByte_congr drv, cfg, input,
    fun more => ?_, fun last => ?_⟩
  · rw [exec_rdData, readDataEffect_of_waiting hk read hp hdrq]
  · rw [consumed_of_more more]
    rfl
  · rw [consumed_of_final hk last]
    rfl

/-! ### A byte supplied to a write command (R177, R215) -/

/-- `DR <- b` alone, the first effect of `WriteData` (R238). -/
def loadDR (b : Byte) (s : State) : State := { s with ctl := { s.ctl with DR := b } }

theorem writeData_of_waiting {s : State} {k : Transfer} (b : Byte) (hk : activeTransfer s = some k)
    (write : isReadTransfer k = false) (hp : s.ctl.phase = .transferring) (hdrq : s.ctl.drq = true) :
    writeData b s = consumeWrite k b (loadDR b s) := by
  have waiting : writeWaiting s = some k := by
    rw [writeWaiting, hk]
    exact if_pos ⟨hp, hdrq, write⟩
  rw [writeData, waiting]
  rfl

section ConsumeWrite

variable {s : State} {k : Transfer} (b : Byte)

theorem consumeWrite_of_stored {a : Nat} (disk : s.selected.hasDisk = true)
    (writable : s.selected.readOnly = false) (addr : xferAddr k s.ctl.byteIndex s = some a) :
    consumeWrite k b s = consumed k (s.setDrive s.ctl.drive (storedSlot s.selected a b)) := by
  have stored : imgWrite s.ctl.drive (xferAddr k s.ctl.byteIndex s) b s =
      .ok (s.setDrive s.ctl.drive (storedSlot s.selected a b)) :=
    imgWrite_ok.2 ⟨a, addr, disk, writable, rfl⟩
  rw [consumeWrite, stored]

theorem consumeWrite_of_range (missing : s.selected.hasDisk = false ∨ xferAddr k s.ctl.byteIndex s = none) :
    consumeWrite k b s = raiseRecordNotFound s := by
  have failed : imgWrite s.ctl.drive (xferAddr k s.ctl.byteIndex s) b s = .error .range :=
    imgWrite_error.2 (.inl ⟨rfl, missing.symm⟩)
  rw [consumeWrite, failed]

theorem consumeWrite_of_readOnly (disk : s.selected.hasDisk = true)
    (addr : (xferAddr k s.ctl.byteIndex s).isSome = true) (readOnly : s.selected.readOnly = true) :
    consumeWrite k b s = raiseWriteProtect s := by
  have failed : imgWrite s.ctl.drive (xferAddr k s.ctl.byteIndex s) b s = .error .readOnly :=
    imgWrite_error.2 (.inr ⟨rfl, Option.isSome_iff_ne_none.1 addr, disk, readOnly⟩)
  rw [consumeWrite, failed]

end ConsumeWrite

theorem ne_readAddress_of_write {k : Transfer} (write : isReadTransfer k = false) : k ≠ .readAddress := by
  rintro rfl
  cases write

/-- Write-protect ends an image transfer, whose sector register stays. -/
theorem raiseWriteProtect_of_image {s : State} {k : Transfer} (hk : activeTransfer s = some k)
    (image : k ≠ .readAddress) :
    raiseWriteProtect s = { s with ctl := { s.ctl with
      stWp := true, phase := .idle, deadline := none, drq := false, intrq := true } } := by
  have active : activeTransfer { s with ctl := { s.ctl with stWp := true } } = some k := hk
  rw [raiseWriteProtect, complete_of_transfer active, if_neg image]

/-- `s` with the byte in `DR` and at offset `a` of the selected image. -/
def storedByte (b : Byte) (a : Nat) (s : State) : State :=
  (loadDR b s).setDrive s.ctl.drive (storedSlot s.selected a b)

/-- Settles O34: the byte is stored at its address alone, and the rest is the end of a consumption. -/
theorem dataWriteStoresTheRequestedByte : Obligations.DataWriteStoresTheRequestedByte := by
  intro b s k a inv hk write hp hdrq disk writable addr
  have run : exec (.wrData b) s = .next (consumed k (storedByte b a s)) := by
    rw [exec_wrData, writeData_of_waiting b hk write hp hdrq]
    exact congrArg _ (consumeWrite_of_stored (s := loadDR b s) b disk writable addr)
  obtain ⟨drv, cfg, input, trace, -, -, drive⟩ := consumed_keeps k (storedByte b a s)
  have active : activeTransfer (storedByte b a s) = some k := hk
  have slot : (consumed k (storedByte b a s)).drv.get s.ctl.drive = storedSlot s.selected a b := by
    rw [drv]
    exact Drives.get_set_same _ _ _
  refine ⟨_, run, ?_, fun d e other => imageByte_of_stored drv other, ?_, fun d other => ?_, ⟨cfg, input, trace⟩,
    fun more => ?_, fun last => ?_⟩
  · rw [State.imageByte, slot]
    exact Memory.read_write_same (inv.slots s.ctl.drive).imageCanonical a b
  · rw [State.selected, drive]
    exact slot ▸ rfl
  · rw [drv]
    exact Drives.get_set_other _ _ other
  · exact congrArg State.ctl (consumed_of_more (s := storedByte b a s) more)
  · rw [consumed_of_final active last, if_neg (ne_readAddress_of_write write)]
    rfl

/-- Settles O36: the two failures of an image write, each a completion with its latch. -/
theorem failedDataWriteEndsTheCommand : Obligations.FailedDataWriteEndsTheCommand := by
  intro b s k hk write hp hdrq
  have active : activeTransfer (loadDR b s) = some k := hk
  have image := ne_readAddress_of_write write
  rw [exec_wrData, writeData_of_waiting b hk write hp hdrq]
  constructor
  · intro missing
    rw [consumeWrite_of_range (s := loadDR b s) b missing, raiseRecordNotFound_of_image active image]
    rfl
  · intro disk addr readOnly
    rw [consumeWrite_of_readOnly (s := loadDR b s) b disk addr readOnly, raiseWriteProtect_of_image active image]
    rfl

/-! ### An access that services no request (R237, R238) -/

theorem readDataEffect_of_plain {s : State} (plain : s.ctl.phase ≠ .transferring ∨ s.ctl.drq = false ∨
    ∀ k, activeTransfer s = some k → isReadTransfer k = false) : readDataEffect s = s := by
  cases waiting : readWaiting s with
  | none => rw [readDataEffect, waiting]
  | some k =>
    obtain ⟨hk, hp, hdrq, read⟩ := readWaiting_some waiting
    obtain phase | drq | write := plain
    · exact absurd hp phase
    · cases drq.symm.trans hdrq
    · cases (write k hk).symm.trans read

theorem writeData_of_plain {s : State} (b : Byte) (plain : s.ctl.phase ≠ .transferring ∨ s.ctl.drq = false ∨
    ∀ k, activeTransfer s = some k → isReadTransfer k = true) :
    writeData b s = { s with ctl := { s.ctl with DR := b } } := by
  cases waiting : writeWaiting s with
  | none => rw [writeData, waiting]
  | some k =>
    obtain ⟨hk, hp, hdrq, write⟩ := writeWaiting_some waiting
    obtain phase | drq | read := plain
    · exact absurd hp phase
    · cases drq.symm.trans hdrq
    · cases (read k hk).symm.trans write

/-- Settles O35: no transfer waits, so the access is of the register alone. -/
theorem dataAccessWithoutRequestIsPlain : Obligations.DataAccessWithoutRequestIsPlain := by
  constructor
  · intro z s plain
    rw [exec_rdData, readDataEffect_of_plain plain]
    rfl
  · intro b s plain
    rw [exec_wrData, writeData_of_plain b plain]

/-! ### Read-Address and its fields (R151 to R153) -/

/-- The last byte of a Read-Address consumed. -/
theorem exec_rdData_of_last_id_byte {s : State} (z : Byte) (hv : activeVariant s = .readAddress)
    (hp : s.ctl.phase = .transferring) (hdrq : s.ctl.drq = true) (hi : s.ctl.byteIndex = 5) :
    ∃ t, exec (.rdData z) s = .next t ∧ t.ctl.phase = .idle ∧ t.ctl.SR = s.ctl.idBuf.track := by
  have last : s.ctl.byteIndex + 1 = xferLen .readAddress := by rw [hi, xferLen]
  refine ⟨_, exec_rdData z s, ?_, SR_after_last_id_byte_consumed hv hp hdrq hi (exec_rdData z s)⟩
  rw [readDataEffect_of_waiting (activeTransfer_of_readAddress hv) rfl hp hdrq, consumed_of_last last]
  rfl

/-- Settles O45: the sixth byte, consumed or lost, completes the command; a host write to `SR` leaves `idBuf`; a
Force-Interrupt and a not-ready ending complete nothing. -/
theorem readAddressOverwritesTheSectorRegister : Obligations.ReadAddressOverwritesTheSectorRegister := by
  refine ⟨fun s z hv hp hdrq hi => exec_rdData_of_last_id_byte z hv hp hdrq hi, ?_, ?_,
    fun s I => ⟨_, rfl, rfl⟩, ?_⟩
  · intro s d delta hv hp hdrq hi hd ahead
    have last : s.ctl.byteIndex + 1 = xferLen .readAddress := by rw [hi, xferLen]
    have fired := fire_of_last (s := setNow d s) d (activeTransfer_of_readAddress hv) hp hdrq last
    have run := perform_tick_of_fire delta ahead hd le_rfl fired (dueDeadline_of_none rfl)
    exact ⟨_, run, rfl, SR_after_last_id_byte_lost hv hp hdrq hi hd le_rfl run⟩
  · intro s z v hv hp hdrq hi
    obtain ⟨t, run, -, track⟩ :=
      exec_rdData_of_last_id_byte (s := { s with ctl := { s.ctl with SR := v } }) z hv hp hdrq hi
    exact ⟨_, t, exec_wrSector v s, run, track⟩
  · intro s x3 E x1 x0 idle notReady
    obtain ⟨ctl, -⟩ := readCommand_endedAtOnce (b := rdAddrByte x3 E x1 x0) idle notReady
    exact ⟨_, rfl, by rw [rdAddrCommand, ctl]⟩

/-- Settles O46: the fields are the registers by definition, the two CRC bytes are its halves, and the check values
are computed. -/
theorem idFieldsComeFromTheRegisters : Obligations.IdFieldsComeFromTheRegisters := by
  refine ⟨fun s => ⟨rfl, ?_, rfl, rfl, BitVec.extractLsb'_append_extractLsb'⟩, ?_, ?_, ?_, ?_⟩
  · have : s.ctl.side.val < 2 := s.ctl.side.isLt
    exact Nat.mod_eq_of_lt (by omega)
  all_goals simp [idCrc, crcByte, crcShifts, crcShift]

end Sys2Proof.Machine

/-! PROOFS. System control writes and the resets (O37 to O40). -/

namespace Sys2Proof.Machine

/-! ### The two cases of a system control write (R200, R201) -/

theorem writeSys_of_select {v : Byte} {s : State} (noPulse : ¬(s.ctl.resetLine = false ∧ v.getLsbD 2 = true)) :
    writeSys v s = sysSelect v s :=
  if_neg noPulse

theorem writeSys_of_pulse {v : Byte} {s : State} (low : s.ctl.resetLine = false) (high : v.getLsbD 2 = true) :
    writeSys v s = resetPulse (sysSelect v s) :=
  if_pos ⟨low, high⟩

theorem sysSide_val (v : Byte) : (sysSide v).val = if v.getLsbD 4 then 0 else 1 := by
  unfold sysSide
  split <;> rfl

/-- Settles O37: without a pulse the write is `sysSelect`. -/
theorem systemControlWriteWithoutPulseOnlySelects : Obligations.SystemControlWriteWithoutPulseOnlySelects := by
  intro v s noPulse
  refine ⟨sysSelect v s, ?_, rfl, sysSide_val v, rfl, rfl, rfl⟩
  rw [exec_wrSys, writeSys_of_select noPulse]

/-! ### The reset-line pulse (R201, R203) -/

/-- The automatic Restore homes the head the write has selected. -/
theorem resetPulse_drv_homed (s : State) :
    (resetPulse s).drv = s.drv.set s.ctl.drive { s.selected with physicalTrack := 0 } :=
  (doRestore_moved { (resetCore s) with ctl := { (resetCore s).ctl with
    CR := AUTO_RESTORE_BYTE, family := .typeI, stepRate := fieldR AUTO_RESTORE_BYTE } }).drv

/-- Settles O38: the controller is the reset one with the Restore begun, row by row; the homed head is
`resetPulse_drv_homed`. -/
theorem resetPulseState : Obligations.ResetPulseState := by
  intro v s low high
  have drv := resetPulse_drv_homed (sysSelect v s)
  refine ⟨resetPulse (sysSelect v s), by rw [exec_wrSys, writeSys_of_pulse low high], rfl, rfl, rfl, rfl, rfl,
    sysSide_val v, rfl, high, rfl, rfl, rfl, rfl, rfl, rfl, rfl, rfl, ?_, fun d other => ?_,
    bytesKept_of_head drv rfl, rfl, rfl, rfl, rfl⟩
  · rw [drv]
    exact Drives.get_set_same _ _ _
  · rw [drv]
    exact Drives.get_set_other _ _ other

/-! ### The system reset (R242) and what both keep (R283) -/

/-- Settles O39: the reset core and the four selections at 0 name every field of the controller but the clock. -/
theorem systemResetState : Obligations.SystemResetState := fun _ => rfl

theorem perform_of_pulses {s t : State} {op : HostOp} (hop : pulses op s) (ht : perform op s = .next t) :
    ∃ v, t = resetPulse (sysSelect v s) := by
  obtain ⟨w, v, rfl, word, low, high⟩ := hop
  rw [perform_word_of_decode word, exec_wrSys, writeSys_of_pulse low high] at ht
  cases ht
  exact ⟨v, rfl⟩

/-- A pulse keeps every slot but for the selected head. -/
theorem resetPulse_slot (s : State) (d : Fin 4) :
    ((resetPulse s).drv.get d).image = (s.drv.get d).image ∧
      ((resetPulse s).drv.get d).hasDisk = (s.drv.get d).hasDisk ∧
      ((resetPulse s).drv.get d).readOnly = (s.drv.get d).readOnly ∧
      ((resetPulse s).drv.get d).dirty = (s.drv.get d).dirty := by
  rw [resetPulse_drv_homed]
  exact ⟨Drives.get_set_congr Drive.image (by rfl) d, Drives.get_set_congr Drive.hasDisk (by rfl) d,
    Drives.get_set_congr Drive.readOnly (by rfl) d, Drives.get_set_congr Drive.dirty (by rfl) d⟩

theorem activeVariant_systemReset (s : State) : activeVariant (systemReset s) = .restore :=
  show classify 0x00#8 = .restore by decide

theorem activeVariant_resetPulse (s : State) : activeVariant (resetPulse s) = .restore :=
  show classify AUTO_RESTORE_BYTE = .restore by decide

/-- Settles O40: neither reset touches the clock or a slot, but for the head a pulse homes, and both leave a
controller in which no transfer is active. -/
theorem whatSurvivesEveryReset : Obligations.WhatSurvivesEveryReset := by
  refine ⟨?_, ?_, ?_⟩
  · rintro s t op (rfl | hop) ht
    · cases ht
      exact ⟨rfl, fun _ _ => rfl, fun _ => ⟨rfl, rfl, rfl, rfl⟩,
        by rw [activeTransfer, activeVariant_systemReset]; rfl, rfl, rfl⟩
    · obtain ⟨v, rfl⟩ := perform_of_pulses hop ht
      exact ⟨rfl, bytesKept_of_head (resetPulse_drv_homed _) rfl, resetPulse_slot (sysSelect v s),
        by rw [activeTransfer, activeVariant_resetPulse]; rfl, rfl, rfl⟩
  · intro s t ht
    cases ht
    exact ⟨rfl, fun _ => rfl⟩
  · intro s t op hop ht
    obtain ⟨v, rfl⟩ := perform_of_pulses hop ht
    refine ⟨activeVariant_resetPulse _, fun d other => ?_⟩
    rw [resetPulse_drv_homed]
    exact congrArg Drive.physicalTrack (Drives.get_set_other _ _ other)

end Sys2Proof.Machine

/-! PROOFS. Encoding and the sector addresser (O1, O4, O50, O51). -/

namespace Sys2Proof

/-- Settles O1: the words are closed, so the decoder is run on each. -/
theorem writtenWordsDecode : Obligations.WrittenWordsDecode := by
  unfold Obligations.WrittenWordsDecode
  decide

/-- The classifier looks at the high nibble alone (R88). -/
theorem classify_eq_of_highNibble (b : Byte) : classify b = classify (b.extractLsb' 4 4 ++ 0#4) := by
  revert b
  decide

/-- R89. -/
theorem classify_ne_unknown (b : Byte) : classify b ≠ .unknown := by
  revert b
  decide

/-- Settles O4: both bytes classify as their common high nibble does. -/
theorem highNibbleAloneSelectsTheVariant : Obligations.HighNibbleAloneSelectsTheVariant := by
  intro b c same
  refine ⟨?_, classify_ne_unknown b⟩
  rw [classify_eq_of_highNibble b, same, ← classify_eq_of_highNibble c]

end Sys2Proof

namespace Sys2Proof.Machine

/-- Settles O50: `lin` writes the offset in the mixed radix of track, side, sector and byte (`lin_eq_some`), whose
digits are read back by division. -/
theorem linIsABijectionOntoTheImage : Obligations.LinIsABijectionOntoTheImage := by
  refine ⟨?_, ?_, ?_, ?_⟩
  · intro t s r o
    rw [Option.isSome_iff_exists]
    constructor
    · rintro ⟨a, valid⟩
      exact (lin_eq_some.1 valid).1
    · intro ranges
      exact ⟨_, lin_eq_some.2 ⟨ranges, rfl⟩⟩
  · intro t s r o a valid
    obtain ⟨ranges, ha⟩ := lin_eq_some.1 valid
    exact ⟨ha, by omega⟩
  · intro t s r o t' s' r' o' a valid valid'
    obtain ⟨ranges, ha⟩ := lin_eq_some.1 valid
    obtain ⟨ranges', ha'⟩ := lin_eq_some.1 valid'
    omega
  · intro a ha
    exact ⟨a / 8192, a / 4096 % 2, a / 256 % 16 + 1, a % 256, lin_eq_some.2 ⟨by omega, by omega⟩⟩

/-- Settles O51: both addresses are valid for the same tracks and sides, and are then the same offset. -/
theorem trackRegionIsItsSectorsInOrder : Obligations.TrackRegionIsItsSectorsInOrder := by
  constructor
  · intro t s r o low high ho
    refine Option.ext fun a => ?_
    rw [trackLin_eq_some, lin_eq_some]
    omega
  · intro t s o beyond
    refine Option.eq_none_iff_forall_ne_some.2 fun a valid => ?_
    obtain ⟨⟨-, -, ho⟩, -⟩ := trackLin_eq_some.1 valid
    omega

end Sys2Proof.Machine

/-! PROOFS. The management of a slot (O52, O54, O55). -/

namespace Sys2Proof.Machine

/-- A buffer of the right size is loaded (R218). -/
theorem insertDisk_of_size {b : Buffer} (size : b.size = IMAGE_SIZE) (ro : Bool) (d : Fin 4) (s : State) :
    insertDisk b ro d s = (s.setDrive d { s.drv.get d with
      image := Memory.ofCells b.cells, hasDisk := true, readOnly := ro, dirty := false }).emit (.inserted d true) :=
  if_neg (not_not.2 size)

/-- Settles O52: the image is that of the buffer's cells, which read as the bytes (`read_ofCells`,
`read_cellsFrom`). -/
theorem insertedDiskHoldsItsBytes : Obligations.InsertedDiskHoldsItsBytes := by
  intro s d bytes ro size
  rw [← imageSize_eq] at size
  rw [perform_insert, insertDisk_of_size (b := Buffer.ofBytes bytes) size]
  refine ⟨_, rfl, fun i h => ?_, ?_, fun e other => Drives.get_set_other _ _ other, rfl, rfl, rfl, rfl⟩
  · have cell := read_cellsFrom bytes 0 i h
    rw [Nat.zero_add] at cell
    rw [State.imageByte, emit_drv, setDrive_drv, Drives.get_set_same]
    exact (Memory.read_ofCells _ (size ▸ h)).trans cell
  · rw [emit_drv, setDrive_drv, Drives.get_set_same]

/-- Settles O54: an eject clears three flags of its own slot. -/
theorem ejectEmptiesTheSlot : Obligations.EjectEmptiesTheSlot := by
  intro s d
  refine ⟨ejectDisk d s, perform_eject d s, ?_, ?_, ?_, (ejectDisk_slot d d s).1,
    fun e other => Drives.get_set_other _ _ other, rfl, rfl, rfl, rfl⟩
  all_goals
    rw [ejectDisk, setDrive_drv, Drives.get_set_same]

/-- A dirty disk is written back (R220). -/
theorem flushDisk_of_dirty {d : Fin 4} {s : State} (disk : (s.drv.get d).hasDisk = true)
    (dirty : (s.drv.get d).dirty = true) :
    flushDisk d s = (s.setDrive d { s.drv.get d with dirty := false }).emit
      (.flushed d ⟨IMAGE_SIZE, (s.drv.get d).image⟩) :=
  if_pos ⟨disk, dirty⟩

/-- Settles O55: the two branches of a flush. -/
theorem flushWritesBackOnlyADirtyDisk : Obligations.FlushWritesBackOnlyADirtyDisk := by
  intro s d
  rw [perform_flush]
  constructor
  · intro disk dirty
    refine ⟨_, rfl, ?_⟩
    rw [flushDisk_of_dirty disk dirty]
    exact ⟨by rw [← imageSize_eq]; rfl, Drives.get_set_same _ _ _, fun e other => Drives.get_set_other _ _ other,
      bytesKept_of_head rfl rfl, rfl, rfl, rfl⟩
  · intro clean
    refine congrArg _ (if_neg ?_)
    rintro ⟨disk, dirty⟩
    simp [disk, dirty] at clean

end Sys2Proof.Machine

/-! PROOFS. A slot that is not selected (O60). `SelectedOnly f` says that `f` neither sees nor touches such a slot; it
holds of each part of an instruction, and of each firing of a tick. -/

namespace Sys2Proof.Machine

/-! ### Two slots -/

theorem Drives.ext_get {ds es : Drives} (h : ∀ d, ds.get d = es.get d) : ds = es := by
  have h0 : ds.d0 = es.d0 := h 0
  have h1 : ds.d1 = es.d1 := h 1
  have h2 : ds.d2 = es.d2 := h 2
  have h3 : ds.d3 = es.d3 := h 3
  cases ds
  cases es
  simp only at h0 h1 h2 h3
  rw [h0, h1, h2, h3]

theorem Drives.set_comm (ds : Drives) {d e : Fin 4} (x y : Drive) (h : d ≠ e) :
    (ds.set d x).set e y = (ds.set e y).set d x := by
  refine Drives.ext_get fun f => ?_
  simp only [Drives.get_set]
  by_cases hf : f = d
  · rw [if_pos hf, if_pos hf, if_neg (hf ▸ h)]
  · rw [if_neg hf, if_neg hf]

theorem State.setDrive_comm (s : State) {d e : Fin 4} (x y : Drive) (h : d ≠ e) :
    (s.setDrive d x).setDrive e y = (s.setDrive e y).setDrive d x :=
  congrArg (fun ds => { s with drv := ds }) (Drives.set_comm s.drv x y h)

/-! ### What looks at the selected slot alone -/

section Seen

variable {s : State} {d : Fin 4} (x : Drive) (other : d ≠ s.ctl.drive)

include other

theorem get_setDrive_other : (s.setDrive d x).drv.get s.ctl.drive = s.drv.get s.ctl.drive :=
  Drives.get_set_other _ _ other.symm

theorem selected_setDrive : (s.setDrive d x).selected = s.selected := get_setDrive_other x other

theorem ready_setDrive : ready (s.setDrive d x) = ready s := by
  rw [ready, ready, selected_setDrive x other, setDrive_ctl]

theorem status_setDrive : status (s.setDrive d x) = status s := by
  have look := selected_setDrive x other
  have isReady := ready_setDrive x other
  cases family : s.ctl.family with
  | typeI =>
    rw [status_of_typeI family, status_of_typeI (s := s.setDrive d x) family, statusTypeI, statusTypeI, look, isReady]
    rfl
  | typeII_III =>
    rw [status_of_typeII_III family, status_of_typeII_III (s := s.setDrive d x) family, statusTypeII_III,
      statusTypeII_III, isReady]
    rfl

theorem imgRead_setDrive (a : Option Nat) :
    imgRead s.ctl.drive a (s.setDrive d x) = imgRead s.ctl.drive a s := by
  cases a with
  | none => rfl
  | some n => rw [imgRead_some, imgRead_some, State.imageByte, State.imageByte, get_setDrive_other x other]

theorem imgOk_setDrive (a : Option Nat) : imgOk s.ctl.drive a (s.setDrive d x) = imgOk s.ctl.drive a s := by
  rw [imgOk, imgOk, get_setDrive_other x other]

theorem imgWrite_setDrive (a : Option Nat) (b : Byte) :
    imgWrite s.ctl.drive a b (s.setDrive d x) = (imgWrite s.ctl.drive a b s).map (State.setDrive · d x) := by
  rw [imgWrite_eq, imgWrite_eq, get_setDrive_other x other]
  cases a with
  | none => rfl
  | some n =>
    dsimp only
    split
    · rfl
    · split
      · rfl
      · exact congrArg Except.ok (State.setDrive_comm s _ _ other)

end Seen

/-! ### Effects that act on the selected slot alone (R268) -/

/-- `f` commutes with a change of a slot that is not selected. -/
def SelectedOnly (f : State → State) : Prop :=
  ∀ (s : State) (d : Fin 4) (x : Drive), d ≠ s.ctl.drive → f (s.setDrive d x) = (f s).setDrive d x

theorem movePhys_setDrive {s : State} {d e : Fin 4} (x : Drive) (n : Int) (other : d ≠ e) :
    movePhys e n (s.setDrive d x) = (movePhys e n s).setDrive d x := by
  rw [movePhys, movePhys, setDrive_drv, Drives.get_set_other _ _ other.symm]
  exact State.setDrive_comm s _ _ other

theorem doRestore_selectedOnly : SelectedOnly doRestore := by
  intro s d x other
  rw [doRestore, doRestore, selected_setDrive x other, setDrive_ctl, movePhys_setDrive x _ other]
  rfl

theorem doSeek_selectedOnly : SelectedOnly doSeek := by
  intro s d x other
  rw [doSeek, doSeek, setDrive_ctl, movePhys_setDrive x _ other]
  rfl

theorem stepCore_selectedOnly (dir : StepDir) (u : Bool) : SelectedOnly (stepCore dir u) := by
  intro s d x other
  rw [stepCore, stepCore, setDrive_ctl, movePhys_setDrive x _ other]
  cases u <;> rfl

theorem doStep_selectedOnly (u : Bool) : SelectedOnly (doStep u) :=
  fun s d x other => stepCore_selectedOnly s.ctl.stepDir u s d x other

theorem doStepIn_selectedOnly (u : Bool) : SelectedOnly (doStepIn u) :=
  fun s d x other => stepCore_selectedOnly .In u { s with ctl := { s.ctl with stepDir := .In } } d x other

theorem doStepOut_selectedOnly (u : Bool) : SelectedOnly (doStepOut u) :=
  fun s d x other => stepCore_selectedOnly .Out u { s with ctl := { s.ctl with stepDir := .Out } } d x other

theorem whenIdle_selectedOnly {f : State → State} (hf : SelectedOnly f) : SelectedOnly (whenIdle f) := by
  intro s d x other
  by_cases idle : s.ctl.phase = .idle
  · rw [whenIdle_of_idle idle, whenIdle_of_idle (s := s.setDrive d x) idle, hf s d x other]
  · rw [whenIdle_of_busy idle, whenIdle_of_busy (s := s.setDrive d x) idle]

theorem typeOneCommand_selectedOnly (b : Byte) {move : State → State} (hm : SelectedOnly move) :
    SelectedOnly (typeOneCommand b move) := by
  refine whenIdle_selectedOnly fun s d x other => ?_
  have moved := hm { acceptPrologue b .typeI s with
    ctl := { (acceptPrologue b .typeI s).ctl with stepRate := fieldR b } } d x other
  exact congrArg (fun t : State => enterSearching t.cfg.tType1 t) moved

theorem startRead_selectedOnly : SelectedOnly startRead := by
  intro s d x other
  rw [startRead, startRead, ready_setDrive x other]
  split <;> rfl

theorem startWrite_selectedOnly : SelectedOnly startWrite := by
  intro s d x other
  rw [startWrite, startWrite, ready_setDrive x other, selected_setDrive x other]
  split
  · split <;> rfl
  · rfl

theorem typeTwoThreeCommand_selectedOnly (b : Byte) {start : State → State} (hs : SelectedOnly start) :
    SelectedOnly (typeTwoThreeCommand b start) :=
  whenIdle_selectedOnly fun s d x other => hs (acceptPrologue b .typeII_III s) d x other

theorem unknownCommand_selectedOnly (b : Byte) : SelectedOnly (unknownCommand b) :=
  whenIdle_selectedOnly fun _ _ _ _ => rfl

/-- Every command byte. -/
theorem writeCommand_selectedOnly (b : Byte) : SelectedOnly (writeCommand b) := by
  intro s d x other
  unfold writeCommand
  split
  · rfl
  · exact typeOneCommand_selectedOnly b doRestore_selectedOnly s d x other
  · exact typeOneCommand_selectedOnly b doSeek_selectedOnly s d x other
  · exact typeOneCommand_selectedOnly b (doStep_selectedOnly _) s d x other
  · exact typeOneCommand_selectedOnly b (doStepIn_selectedOnly _) s d x other
  · exact typeOneCommand_selectedOnly b (doStepOut_selectedOnly _) s d x other
  · exact typeTwoThreeCommand_selectedOnly b startRead_selectedOnly s d x other
  · exact typeTwoThreeCommand_selectedOnly b startWrite_selectedOnly s d x other
  · exact typeTwoThreeCommand_selectedOnly b startRead_selectedOnly s d x other
  · exact typeTwoThreeCommand_selectedOnly b startRead_selectedOnly s d x other
  · exact typeTwoThreeCommand_selectedOnly b startWrite_selectedOnly s d x other
  · exact unknownCommand_selectedOnly b s d x other

/-- A consumption looks at no slot. -/
theorem consumed_setDrive (k : Transfer) (s : State) (d : Fin 4) (x : Drive) :
    consumed k (s.setDrive d x) = (consumed k s).setDrive d x := by
  by_cases last : s.ctl.byteIndex + 1 = xferLen k
  · rw [consumed_of_last last, consumed_of_last (s := s.setDrive d x) last]
    rfl
  · rw [consumed_of_more last, consumed_of_more (s := s.setDrive d x) last]
    rfl

theorem readDataEffect_setDrive (s : State) (d : Fin 4) (x : Drive) :
    readDataEffect (s.setDrive d x) = (readDataEffect s).setDrive d x := by
  have waiting : readWaiting (s.setDrive d x) = readWaiting s := rfl
  rw [readDataEffect, readDataEffect, waiting]
  split
  · exact consumed_setDrive _ s d x
  · rfl

theorem consumeWrite_selectedOnly (k : Transfer) (b : Byte) : SelectedOnly (consumeWrite k b) := by
  intro s d x other
  have addr : xferAddr k s.ctl.byteIndex (s.setDrive d x) = xferAddr k s.ctl.byteIndex s :=
    xferAddr_congr k _ rfl rfl rfl
  rw [consumeWrite, consumeWrite, setDrive_ctl, addr, imgWrite_setDrive x other]
  cases imgWrite s.ctl.drive (xferAddr k s.ctl.byteIndex s) b s with
  | error e => cases e <;> rfl
  | ok t => exact consumed_setDrive k t d x

theorem writeData_selectedOnly (b : Byte) : SelectedOnly (writeData b) := by
  intro s d x other
  have waiting : writeWaiting (s.setDrive d x) = writeWaiting s := rfl
  rw [writeData, writeData, waiting]
  split
  · exact consumeWrite_selectedOnly _ b (loadDR b s) d x other
  · rfl

/-- Every instruction but a system control write. -/
theorem exec_setDrive {i : Instr} {s t : State} {d : Fin 4} (x : Drive) (other : d ≠ s.ctl.drive)
    (hi : ∀ v, i ≠ .wrSys v) (ht : exec i s = .next t) : exec i (s.setDrive d x) = .next (t.setDrive d x) := by
  obtain ⟨b, he⟩ | ⟨b, rfl | rfl | rfl | rfl | rfl | rfl | rfl | rfl | rfl | rfl⟩ := encode_cases i
  · rw [exec_of_encode_command he] at ht ⊢
    cases ht
    rw [writeCommand_selectedOnly b s d x other]
  · cases ht
    rw [exec_rdStatus, status_setDrive x other]
    rfl
  · cases ht
    rw [exec_wrCmd, writeCommand_selectedOnly b s d x other]
  · cases ht
    rfl
  · cases ht
    rfl
  · cases ht
    rfl
  · cases ht
    rfl
  · cases ht
    rw [exec_rdData, readDataEffect_setDrive]
    rfl
  · cases ht
    rw [exec_wrData, writeData_selectedOnly b s d x other]
  · cases ht
    rfl
  · exact absurd rfl (hi b)

/-! ### A tick -/

section Firing

variable {s : State} {d : Fin 4} (x : Drive) (other : d ≠ s.ctl.drive)

include other

theorem nextByte_setDrive (k : Transfer) (e : Nat) :
    nextByte k e (s.setDrive d x) = (nextByte k e s).map (State.setDrive · d x) := by
  have addr : xferAddr k s.ctl.byteIndex (s.setDrive d x) = xferAddr k s.ctl.byteIndex s :=
    xferAddr_congr k _ rfl rfl rfl
  cases k <;> simp only [nextByte, presentImage, presentId, request, setDrive_ctl, addr, imgRead_setDrive x other,
    imgOk_setDrive x other]
  all_goals split <;> rfl

theorem fire_setDrive (e : Nat) : fire e (s.setDrive d x) = (fire e s).map (State.setDrive · d x) := by
  have variant : activeVariant (s.setDrive d x) = activeVariant s := rfl
  have transfer : activeTransfer (s.setDrive d x) = activeTransfer s := rfl
  unfold fire
  rw [variant, transfer, setDrive_ctl]
  cases s.ctl.phase with
  | idle => rfl
  | searching =>
    dsimp only
    split
    · rfl
    · split
      · exact nextByte_setDrive (s := enterTransferring _ s) x other _ e
      · rfl
  | transferring =>
    dsimp only
    split
    · split
      · rw [lostByte_eq, lostByte_eq, setDrive_ctl]
        split
        · rfl
        · exact nextByte_setDrive (s := advance (raiseLostData s)) x other _ e
      · exact nextByte_setDrive x other _ e
    · rfl

end Firing

theorem fireDue_setDrive {s t : State} {d : Fin 4} {n : Nat} (x : Drive) (other : d ≠ s.ctl.drive)
    (h : fireDue n s = .ok t) : fireDue n (s.setDrive d x) = .ok (t.setDrive d x) := by
  induction n generalizing s with
  | zero =>
    cases due : dueDeadline s with
    | none =>
      rw [fireDue_done _ due] at h
      cases h
      exact fireDue_done 0 due
    | some e =>
      rw [fireDue, due] at h
      cases h
  | succ n ih =>
    cases due : dueDeadline s with
    | none =>
      rw [fireDue_done _ due] at h
      cases h
      exact fireDue_done (n + 1) due
    | some e =>
      have due' : dueDeadline (s.setDrive d x) = some e := due
      rw [fireDue_next n due] at h
      rw [fireDue_next n due', fire_setDrive x other]
      cases hf : fire e s with
      | error r =>
        rw [hf] at h
        cases h
      | ok u =>
        rw [hf] at h
        exact ih ((fire_keeps hf).drive.symm ▸ other) h

/-- Settles O60: every part of an instruction but a system control write, and every firing of a tick, commutes with a
change of a slot that is not selected. -/
theorem unselectedSlotIsNeitherSeenNorTouched : Obligations.UnselectedSlotIsNeitherSeenNorTouched := by
  constructor
  · intro i s t d x other hi ht
    exact exec_setDrive x other hi ht
  · intro s t abs delta d x other ht
    have ahead : s.ctl.now ≤ abs := now_le_of_tick (delta := delta) ht
    exact perform_tick_of_fireDue (s := s.setDrive d x) delta ahead
      (fireDue_setDrive (s := setNow abs s) x other (perform_tick_next ht))

end Sys2Proof.Machine
